-- ==== Sys2Proof/Word.lean ====
section
/-! DEFINITION. The words of the block: every register, address and instruction is 32 bits (00_scope.md R4). -/

namespace Sys2Proof

/-- A word: an instruction, a register's content or a bus address (R4). -/
abbrev Word := BitVec 32

/-- A byte of the BIOS image, as its provider stores it (20_memory.md R45). -/
abbrev Byte := BitVec 8

/-- A register index: a 5-bit field of an instruction (30_encoding.md R65). -/
abbrev RegIdx := BitVec 5

/-- A 6-bit selector: a primary opcode or a sub-opcode (30_encoding.md R63, R64). -/
abbrev Code6 := BitVec 6

/-- The raw 16-bit immediate field, of which R66 and R67 give two views. -/
abbrev Imm16 := BitVec 16

end Sys2Proof
end

