-- ==== Sys2Proof/Config.lean ====
section
/-! DEFINITION. What the platform fixes for the machine (00_scope.md R5) and the one free value of the model. -/

namespace Sys2Proof

/-- An address range (20_memory.md R32): the base is a bus address, the length an unbounded number. -/
structure AddressRange where
  base : Word
  len : Nat
  deriving DecidableEq, Repr

/-- The configuration of R5, constant between two resets (70_reset_and_hazards.md R170).
The image itself is `State.mem`. -/
structure Platform where
  /-- `(BIOS_BASE, BIOS_LEN)`; `RESET_PC` is the base; length 0 means that the BIOS is absent. -/
  bios : AddressRange
  /-- `(MEMCTL_BASE, MEMCTL_LEN)`. -/
  memctl : AddressRange
  /-- Whether the engine emits the optional trace event of 40_cycle_and_dispatch.md R92 (log entry 9). -/
  trace : Bool
  deriving DecidableEq, Repr

/-- The value general register `i` holds after the reset command number `n` (10_state.md R24: unspecified for
registers 1 to 31; log entry 4). A FREE VALUE: it has no body, so a proof holds for every value of it. -/
opaque Config.freeResetReg (n : Nat) (i : Nat) : Word

end Sys2Proof
end

