-- ==== Sys2Proof/Syntax.lean ====
section
/-! DEFINITION. The nine instructions, one constructor for each row of spec/opcode_table.json.
A constructor holds the operands of the assembler syntax (30_encoding.md R77) and no ignored field: a word that
differs only in ignored bits is the same instruction (R75). -/

namespace Sys2Proof

/-- An instruction of the block (30_encoding.md R71 to R73). -/
inductive Instr where
  /-- `LUI rt, imm` (R100). -/
  | lui (rt : RegIdx) (imm : Imm16)
  /-- `ORI rt, rs, imm` (R101). -/
  | ori (rt rs : RegIdx) (imm : Imm16)
  /-- `ADDIU rt, rs, imm` (R102). -/
  | addiu (rt rs : RegIdx) (imm : Imm16)
  /-- `SW rt, imm(rs)` (R120). -/
  | sw (rt : RegIdx) (imm : Imm16) (rs : RegIdx)
  /-- `J address`, by its 26-bit target field (R125). -/
  | j (target : BitVec 26)
  /-- `BNE rs, rt, imm` (R127): the immediate is an operand of the syntax that the block never reads. -/
  | bne (rs rt : RegIdx) (imm : Imm16)
  /-- `MTC0 rt, rd` (R135): `rd` is a coprocessor-0 register number. -/
  | mtc0 (rt rd : RegIdx)
  /-- `OR rd, rs, rt` (R110). -/
  | or (rd rs rt : RegIdx)
  /-- `SLL rd, rt, shamt` (R111). -/
  | sll (rd rt : RegIdx) (shamt : BitVec 5)
  deriving DecidableEq, Repr

end Sys2Proof
end

