-- ==== Sys2Proof/WellFormed.lean ====
section
/-! DEFINITION. What is well formed: words by the opcode table, instructions, and platforms by the constraints of R5. -/

namespace Sys2Proof

/-- One row of spec/opcode_table.json: a word belongs to the row when its masked bits equal the match. -/
structure TableRow where
  mnemonic : String
  matchBits : Word
  mask : Word
  deriving DecidableEq, Repr

/-- spec/opcode_table.json, in its order. -/
def opcodeTable : List TableRow :=
  [ ⟨"LUI",   0x3C000000, 0xFC000000⟩,
    ⟨"ORI",   0x34000000, 0xFC000000⟩,
    ⟨"ADDIU", 0x24000000, 0xFC000000⟩,
    ⟨"SW",    0xAC000000, 0xFC000000⟩,
    ⟨"J",     0x08000000, 0xFC000000⟩,
    ⟨"BNE",   0x14000000, 0xFC000000⟩,
    ⟨"MTC0",  0x40800000, 0xFFE00000⟩,
    ⟨"OR",    0x00000025, 0xFC00003F⟩,
    ⟨"SLL",   0x00000000, 0xFC00003F⟩ ]

/-- The word belongs to the row. -/
def TableRow.covers (r : TableRow) (w : Word) : Bool := w &&& r.mask == r.matchBits

/-- A well-formed instruction word: some row of the table covers it. Every other word is illegal (30_encoding.md R74, R136). -/
def wordWellFormed (w : Word) : Bool := opcodeTable.any (·.covers w)

/-- An instruction is well formed whatever its operands: every value of a register field names a register (R65), every
value of an immediate, a shift amount, a target and a coprocessor-0 number is legal (R66 to R69, R135), and the
types of `Instr` admit no other value. -/
def Instr.wellFormed (i : Instr) : Bool :=
  match i with
  | .lui _ _ => true
  | .ori _ _ _ => true
  | .addiu _ _ _ => true
  | .sw _ _ _ => true
  | .j _ => true
  | .bne _ _ _ => true
  | .mtc0 _ _ => true
  | .or _ _ _ => true
  | .sll _ _ _ => true

/-- The range does not wrap around the top of the address space (20_memory.md R32). -/
def AddressRange.fits (r : AddressRange) : Bool := r.base.toNat + r.len ≤ 2 ^ 32

/-- The constraints of R5 on the configuration. -/
def Platform.wellFormed (p : Platform) : Bool :=
  p.bios.base.toNat % 4 == 0 && p.bios.len % 4 == 0 && p.bios.fits && p.memctl.fits

end Sys2Proof
end

