-- ==== Sys2Proof/Decode.lean ====
section
/-! DEFINITION. The instruction decoder, the two dispatch tables, and the encoder (30_encoding.md). -/

namespace Sys2Proof

/-- `zext_16_32` (00_scope.md section 6). -/
def zext16 (v : Imm16) : Word := v.setWidth 32

/-- `sext_16_32` (00_scope.md section 6). -/
def sext16 (v : Imm16) : Word := v.signExtend 32

/-- The decoded fields of a word (30_encoding.md R62). Every field is extracted from every word. -/
structure Fields where
  opcode : Code6
  rs : RegIdx
  rt : RegIdx
  rd : RegIdx
  shamt : BitVec 5
  funct : Code6
  imm : Imm16
  immZx : Word
  immSx : Word
  target : BitVec 26
  word : Word
  deriving DecidableEq, Repr

/-- `decode` of R61 and R62: total, each field from its own bits alone (R63 to R70). -/
def fields (w : Word) : Fields :=
  { opcode := w.extractLsb' 26 6
    rs := w.extractLsb' 21 5
    rt := w.extractLsb' 16 5
    rd := w.extractLsb' 11 5
    shamt := w.extractLsb' 6 5
    funct := w.extractLsb' 0 6
    imm := w.extractLsb' 0 16
    immZx := zext16 (w.extractLsb' 0 16)
    immSx := sext16 (w.extractLsb' 0 16)
    target := w.extractLsb' 0 26
    word := w }

/-- The nine handlers (00_scope.md R1). -/
inductive Handler where
  | lui | ori | addiu | sw | j | bne | mtc0 | or | sll
  deriving DecidableEq, Repr

/-- An occupied entry of the primary table (R71). -/
inductive PrimaryEntry where
  /-- The special group: a second lookup by the sub-opcode (R72). -/
  | special
  | handler (h : Handler)
  deriving DecidableEq, Repr

/-- Why a word selects no instruction: the rejection is by name and carries what UnhandledInstruction reports. -/
inductive Miss where
  /-- The primary table has no entry for the opcode (R74). -/
  | primary (opcode : Code6)
  /-- The special table has no entry for the sub-opcode (R74). -/
  | special (funct : Code6)
  /-- A coprocessor-0 word whose selector is not 4 (R73, 45_system_cop0.md R136). -/
  | cop0 (rs : RegIdx)
  deriving DecidableEq, Repr

/-- The primary table (R71): eight occupied entries. -/
def primaryTable : List (Code6 × PrimaryEntry) :=
  [ (0x00, .special),
    (0x02, .handler .j),
    (0x05, .handler .bne),
    (0x09, .handler .addiu),
    (0x0D, .handler .ori),
    (0x0F, .handler .lui),
    (0x10, .handler .mtc0),
    (0x2B, .handler .sw) ]

/-- The special table (R72): two occupied entries. -/
def specialTable : List (Code6 × Handler) :=
  [ (0x00, .sll),
    (0x25, .or) ]

/-- The two-level lookup of 40_cycle_and_dispatch.md R85. -/
def lookupHandler (f : Fields) : Except Miss Handler :=
  match primaryTable.lookup f.opcode with
  | none => .error (.primary f.opcode)
  | some (.handler h) => .ok h
  | some .special =>
    match specialTable.lookup f.funct with
    | none => .error (.special f.funct)
    | some g => .ok g

/-- The instruction a handler reads from the fields. Only the COP0 entry checks a field: the selector `rs = 4` (R73). -/
def instrOf (h : Handler) (f : Fields) : Except Miss Instr :=
  match h with
  | .lui => .ok (.lui f.rt f.imm)
  | .ori => .ok (.ori f.rt f.rs f.imm)
  | .addiu => .ok (.addiu f.rt f.rs f.imm)
  | .sw => .ok (.sw f.rt f.imm f.rs)
  | .j => .ok (.j f.target)
  | .bne => .ok (.bne f.rs f.rt f.imm)
  | .mtc0 => if f.rs = 4 then .ok (.mtc0 f.rt f.rd) else .error (.cop0 f.rs)
  | .or => .ok (.or f.rd f.rs f.rt)
  | .sll => .ok (.sll f.rd f.rt f.shamt)

/-- The instruction a word stands for, or why it stands for none (R71 to R76). -/
def decodeWord (w : Word) : Except Miss Instr :=
  match lookupHandler (fields w) with
  | .error m => .error m
  | .ok h => instrOf h (fields w)

/-- A word from the four bytes the image's provider stores, the lowest address first (20_memory.md R45). -/
def wordOfBytes (b0 b1 b2 b3 : Byte) : Word := b3 ++ b2 ++ b1 ++ b0

/-- Byte `k` of a word in the same order. -/
def byteOfWord (w : Word) (k : Nat) : Byte := w.extractLsb' (8 * k) 8

/-- Why a list of bytes holds no instruction. -/
inductive DecodeError where
  /-- Fewer than four bytes: an instruction is one whole word (R60). -/
  | truncated
  | miss (m : Miss)
  deriving DecidableEq, Repr

/-- The decoder on the bytes of an image: the first instruction and the bytes after it. -/
def decodeBytes : List Byte → Except DecodeError (Instr × List Byte)
  | b0 :: b1 :: b2 :: b3 :: rest =>
    match decodeWord (wordOfBytes b0 b1 b2 b3) with
    | .ok i => .ok (i, rest)
    | .error m => .error (.miss m)
  | _ => .error .truncated

/-! The encoder: the four formats of 30_encoding.md section 2 and the canonical words of R77. -/

/-- Format I. -/
def formatI (opcode : Code6) (rs rt : RegIdx) (imm : Imm16) : Word := opcode ++ rs ++ rt ++ imm

/-- Format J. -/
def formatJ (opcode : Code6) (target : BitVec 26) : Word := opcode ++ target

/-- Format R. -/
def formatR (opcode : Code6) (rs rt rd : RegIdx) (shamt : BitVec 5) (funct : Code6) : Word :=
  opcode ++ rs ++ rt ++ rd ++ shamt ++ funct

/-- Format C0. -/
def formatC0 (opcode : Code6) (rs rt rd : RegIdx) (low : BitVec 11) : Word := opcode ++ rs ++ rt ++ rd ++ low

/-- The canonical word of an instruction (R77): 0 in every ignored field. -/
def encode : Instr → Word
  | .lui rt imm => formatI 0x0F 0 rt imm
  | .ori rt rs imm => formatI 0x0D rs rt imm
  | .addiu rt rs imm => formatI 0x09 rs rt imm
  | .sw rt imm rs => formatI 0x2B rs rt imm
  | .j target => formatJ 0x02 target
  | .bne rs rt imm => formatI 0x05 rs rt imm
  | .mtc0 rt rd => formatC0 0x10 4 rt rd 0
  | .or rd rs rt => formatR 0x00 rs rt rd 0 0x25
  | .sll rd rt shamt => formatR 0x00 0 rt rd shamt 0x00

/-- The bits of a word that decide it is this instruction with these operands: all but the ignored ones (R75). -/
def usedBits : Instr → Word
  | .lui _ _ => 0xFC1FFFFF
  | .ori _ _ _ => 0xFFFFFFFF
  | .addiu _ _ _ => 0xFFFFFFFF
  | .sw _ _ _ => 0xFFFFFFFF
  | .j _ => 0xFFFFFFFF
  | .bne _ _ _ => 0xFFFFFFFF
  | .mtc0 _ _ => 0xFFFFF800
  | .or _ _ _ => 0xFFFFF83F
  | .sll _ _ _ => 0xFC1FFFFF

/-- `J addr` of R77: the target field is `addr[27:2]`. -/
def assembleJ (addr : Word) : Instr := .j (addr.extractLsb' 2 26)

/-- `NOP` of R78. -/
def nopWord : Word := 0x00000000

/-- The instruction read from the word whose bits are `w`, numbered as spec/opcode_table.json numbers them; bits at
`nbits` and above are 0. The word is laid out as the image stores it and given to the decoder. -/
def decodeTableWord (nbits w : Nat) : Option Instr :=
  let word := BitVec.ofNat 32 (w % 2 ^ nbits)
  match decodeBytes [byteOfWord word 0, byteOfWord word 1, byteOfWord word 2, byteOfWord word 3] with
  | .ok (i, _) => some i
  | .error _ => none

end Sys2Proof
end

