-- ==== Sys2Proof/Machine/Memory.lean ====
section
/-! DEFINITION. The BIOS image as plain data: bytes by address, in one canonical form (20_memory.md R34, R45). -/

namespace Sys2Proof.Machine

/-- The readable memory of the address space: the bytes of the BIOS image (R34), addresses strictly rising and no
entry equal to what an unlisted address holds. -/
abbrev Memory := List Host.Cell

/-- What a byte that is not listed holds: image words not listed are 0x00000000 (95_test_vectors.md; log entry 10). -/
def unlistedByte : Byte := 0

/-- The byte at an address. -/
def Memory.readByte : Memory → Nat → Byte
  | [], _ => unlistedByte
  | (a, b) :: m, n => if a = n then b else Memory.readByte m n

/-- The image with one byte replaced: how an image is loaded, no instruction does it (R52). -/
def Memory.writeByte : Memory → Nat → Byte → Memory
  | [], n, v => if v = unlistedByte then [] else [(n, v)]
  | (a, b) :: m, n, v =>
    if n < a then (if v = unlistedByte then (a, b) :: m else (n, v) :: (a, b) :: m)
    else if n = a then (if v = unlistedByte then m else (n, v) :: m)
    else (a, b) :: Memory.writeByte m n v

/-- The canonical form. -/
def Memory.wf : Memory → Bool
  | [] => true
  | c :: m => c.2 != unlistedByte && m.all (fun d => c.1 < d.1) && Memory.wf m

/-- The word whose lowest byte is at address `a`: little-endian assembly (R45). -/
def Memory.readWord (m : Memory) (a : Nat) : Word :=
  wordOfBytes (m.readByte a) (m.readByte (a + 1)) (m.readByte (a + 2)) (m.readByte (a + 3))

/-- The image with one word replaced, in the same byte order. -/
def Memory.writeWord (m : Memory) (a : Nat) (w : Word) : Memory :=
  (((m.writeByte a (byteOfWord w 0)).writeByte (a + 1) (byteOfWord w 1)).writeByte (a + 2) (byteOfWord w 2)).writeByte
    (a + 3) (byteOfWord w 3)

/-- The image with the words `ws` at `a`, `a + 4`, and so on. -/
def Memory.loadWords (m : Memory) (a : Nat) : List Word → Memory
  | [] => m
  | w :: ws => Memory.loadWords (m.writeWord a w) (a + 4) ws

end Sys2Proof.Machine
end

