-- ==== Sys2Proof/Machine/Platform.lean ====
section
/-! DEFINITION. The address map: ranges, the fixed addresses, and the platform of the spec's defaults (00_scope.md R4, R5; 20_memory.md R32, R43). -/

namespace Sys2Proof.Machine

/-- `contains` of R32, on unbounded integers. -/
def inRange (r : AddressRange) (addr : Word) : Bool :=
  r.base.toNat ≤ addr.toNat && addr.toNat < r.base.toNat + r.len

/-- `offset` of R32, meaningful when the range contains the address. -/
def offsetIn (r : AddressRange) (addr : Word) : Nat := addr.toNat - r.base.toNat

/-- `RAM_SIZE_ADDR` (R4). -/
def ramSizeAddr : Word := 0x1F801060

/-- The coprocessor-0 number of the status register (10_state.md R19). -/
def statusRegister : RegIdx := 12

/-- An access address is a multiple of 4 (20_memory.md R39). -/
def aligned (addr : Word) : Bool := addr.toNat % 4 == 0

/-- The spec's default platform (R5; log entry 2), with the trace event on (log entry 9). -/
def defaultPlatform : Platform :=
  { bios := ⟨0xBFC00000, 0x80000⟩, memctl := ⟨0x1F801000, 36⟩, trace := true }

/-- The image before a program is loaded: nothing listed (log entry 10). -/
def emptyImage : Memory := []

end Sys2Proof.Machine
end

