-- ==== Sys2Proof/Machine/State.lean ====
section
/-! DEFINITION. The state of the block as plain data (10_state.md), with the configuration it runs under (00_scope.md R5)
and the model's own fields for what passes between the block and its host. -/

namespace Sys2Proof.Machine

/-- The pending-instruction latch: the fetched word and its fetch address (10_state.md R17). -/
structure Latch where
  word : Word
  addr : Word
  deriving DecidableEq, Repr

/-- The engine state (10_state.md R20, 40_cycle_and_dispatch.md R80). -/
inductive Run where
  | stopped
  | running
  deriving DecidableEq, Repr

/-- The devices on the bus (20_memory.md R33). -/
inductive Device where
  | bios
  | memctl
  deriving DecidableEq, Repr

/-- The severity of the UnimplementedStore diagnostic (60_exceptions.md R146). -/
inductive Severity where
  | normal
  | low
  deriving DecidableEq, Repr

/-- The record of a fatal fault of the block: its kind and exactly the fields R140 lists for the kind
(60_exceptions.md R145). Taking one is a next state of the machine (R148), not a stop of the model. -/
inductive FatalFault where
  /-- R141. -/
  | unalignedAccess (addr : Word)
  /-- R142. -/
  | unmappedRead (addr : Word) (device : Device)
  /-- R143. -/
  | unmappedWrite (addr : Word) (value : Word)
  /-- R144: `subop` is absent for a primary-table miss and for BNE; a coprocessor-0 selector is written in six bits. -/
  | unhandledInstruction (addr : Word) (opcode : Code6) (subop : Option Code6)
  deriving DecidableEq, Repr

/-- What the block sends to its host (00_scope.md R8). -/
inductive Event where
  /-- A fatal fault (60_exceptions.md R148). -/
  | fault (f : FatalFault)
  /-- The UnimplementedStore diagnostic (60_exceptions.md R146). -/
  | unimplementedStore (severity : Severity) (addr : Word) (value : Word)
  /-- The per-cycle trace event (40_cycle_and_dispatch.md R92). -/
  | trace (addr : Word) (opcode : Code6) (mnemonic : Option Handler) (isNop : Bool)
  /-- The report "cannot start without BIOS image" (40_cycle_and_dispatch.md R81). -/
  | cannotStart
  deriving DecidableEq, Repr

/-- What the platform supplies with a `reset`: the configuration and the image, read at reset (70_reset_and_hazards.md R170). -/
structure Boot where
  platform : Platform
  image : Memory
  deriving DecidableEq, Repr

/-- The host commands pending at one cycle boundary (00_scope.md R8); several may coincide (40_cycle_and_dispatch.md R87). -/
structure HostInput where
  reset : Option Boot
  pause : Bool
  start : Bool
  step : Bool
  deriving DecidableEq, Repr

/-- The one command that is served at a boundary (R87), or none. -/
inductive Command where
  | none
  | reset (b : Boot)
  | pause
  | start
  | step
  deriving DecidableEq, Repr

/-- The state of the machine. -/
structure State where
  /-- The general registers; cell 0 is a real cell (10_state.md R10, R11). -/
  x : Vector Word 32
  /-- The next address to fetch (10_state.md R15). -/
  pc : Word
  /-- The pending instruction (10_state.md R17). -/
  latch : Latch
  /-- The control/status register (10_state.md R19). -/
  sr : Word
  /-- Stopped or Running (10_state.md R20). -/
  run : Run
  /-- The first fatal fault since the last reset (10_state.md R22). -/
  fault : Option FatalFault
  /-- The configuration of R5, which no step but a reset changes (log entry 1). -/
  platform : Platform
  /-- The BIOS image (20_memory.md R34), which no step but a reset changes. -/
  mem : Memory
  /-- The model's own: the instruction taken in step 3 of the cycle in progress, cleared at its end
  (40_cycle_and_dispatch.md R84, 10_state.md R25; log entry 11). -/
  instr : Latch
  /-- The model's own: the events sent to the host, oldest first (log entry 6). -/
  events : List Event
  /-- The model's own: the host commands at the coming cycle boundaries; an exhausted list means no command (log entry 7). -/
  inputs : List HostInput
  /-- The model's own: the reset commands served so far, with which free reset values are drawn (log entry 4). -/
  resets : Nat
  deriving DecidableEq, Repr

/-- Why a step stops without a next state. No instruction stops. -/
inductive Fault where
  /-- Raised by the `reset` command when the configuration or the image offered breaks the constraints of 00_scope.md R5
  (Machine/HostCommands.lean): the spec gives no meaning to such a platform. Safe: the model stops. Log entry 8. -/
  | illegalConfiguration
  deriving DecidableEq, Repr

/-- Why the model gives an instruction no meaning. -/
inductive Refusal where
  /-- Only for an arm of `exec` without a meaning; there is none. Safe: the model stops. -/
  | notModelled (mnemonic : String)
  deriving DecidableEq, Repr

/-- What one step, or one instruction, answers. -/
abbrev Result := Host.Outcome State Fault Refusal

/-- The content of the latch after reset (10_state.md R24): the all-zero word, fetched from nowhere. -/
def emptyLatch : Latch := ⟨0x00000000, 0x00000000⟩

/-- No command at a boundary. -/
def noInput : HostInput := ⟨.none, false, false, false⟩

/-- The machine right after reset (10_state.md R24, 70_reset_and_hazards.md R170), on the spec's default platform.
Registers 1 to 31 are unspecified there; 0 is the value the model names (log entry 3). -/
def State.reset : State :=
  { x := Vector.replicate 32 0
    pc := defaultPlatform.bios.base
    latch := emptyLatch
    sr := 0
    run := .stopped
    fault := none
    platform := defaultPlatform
    mem := emptyImage
    instr := emptyLatch
    events := []
    inputs := []
    resets := 0 }

end Sys2Proof.Machine
end

