-- ==== Sys2Proof/Machine/Ops.lean ====
section
/-! DEFINITION. The named operations over registers, bus and faults: the one place each kind of state is read and written. -/

namespace Sys2Proof.Machine

/-- `x[i]` (00_scope.md section 6): the content of cell `i`, cell 0 included (10_state.md R11). -/
def State.reg (s : State) (r : RegIdx) : Word := s.x[r.toNat]'r.isLt

/-- `x[i] <- v`: performed for cell 0 as for any other (10_state.md R11). -/
def State.setReg (s : State) (r : RegIdx) (v : Word) : State := { s with x := s.x.set r.toNat v r.isLt }

/-- `pc <- v` (10_state.md R15). -/
def State.setPc (s : State) (v : Word) : State := { s with pc := v }

/-- `sr <- v` (10_state.md R19). -/
def State.setSr (s : State) (v : Word) : State := { s with sr := v }

/-- An event goes to the host (00_scope.md R8); it writes no state of the block. -/
def State.emit (s : State) (e : Event) : State := { s with events := s.events ++ [e] }

/-! The fault record (60_exceptions.md R140, R145): a field that a kind does not carry is absent. -/

/-- The code of the kind (R140). -/
def FatalFault.code : FatalFault → Nat
  | .unalignedAccess _ => 1
  | .unmappedRead _ _ => 2
  | .unmappedWrite _ _ => 3
  | .unhandledInstruction _ _ _ => 4

/-- The address every kind carries: the access address, or the fetch address of the unhandled word. -/
def FatalFault.addr : FatalFault → Word
  | .unalignedAccess a => a
  | .unmappedRead a _ => a
  | .unmappedWrite a _ => a
  | .unhandledInstruction a _ _ => a

/-- The value that was to be stored. -/
def FatalFault.value? : FatalFault → Option Word
  | .unmappedWrite _ v => some v
  | .unalignedAccess _ => none
  | .unmappedRead _ _ => none
  | .unhandledInstruction _ _ _ => none

/-- The opcode of the unhandled word. -/
def FatalFault.opcode? : FatalFault → Option Code6
  | .unhandledInstruction _ o _ => some o
  | .unalignedAccess _ => none
  | .unmappedRead _ _ => none
  | .unmappedWrite _ _ => none

/-- The sub-opcode of the unhandled word, where its kind of miss has one. -/
def FatalFault.subop? : FatalFault → Option Code6
  | .unhandledInstruction _ _ sub => sub
  | .unalignedAccess _ => none
  | .unmappedRead _ _ => none
  | .unmappedWrite _ _ => none

/-- The device consulted by the read. -/
def FatalFault.device? : FatalFault → Option Device
  | .unmappedRead _ d => some d
  | .unalignedAccess _ => none
  | .unmappedWrite _ _ => none
  | .unhandledInstruction _ _ _ => none

/-- The device identifiers of 20_memory.md R33. -/
def Device.id : Device → Nat
  | .bios => 0
  | .memctl => 1

/-- The code of the one diagnostic (R140); the other events have none. -/
def Event.diagnosticCode? : Event → Option Nat
  | .unimplementedStore _ _ _ => some 1
  | .fault _ => none
  | .trace _ _ _ _ => none
  | .cannotStart => none

/-- The record of a word that selects no instruction, fetched from `addr` (60_exceptions.md R144 (a) to (c)). -/
def missFault (addr : Word) : Miss → FatalFault
  | .primary opcode => .unhandledInstruction addr opcode none
  | .special funct => .unhandledInstruction addr 0x00 (some funct)
  | .cop0 rs => .unhandledInstruction addr 0x10 (some (rs.setWidth 6))

/-- TAKING A FATAL FAULT (60_exceptions.md R148): the first record since reset is kept, the engine stops, the fault event
goes to the host. `pc` is not changed, nothing is saved, and what earlier steps of the cycle wrote stays written (R149).
There is no return from a fault in the block: recovery is a host command (R152, Machine/HostCommands.lean). -/
def takeFault (f : FatalFault) (s : State) : State :=
  { s with
    fault := s.fault.or (some f)
    run := .stopped
    events := s.events ++ [.fault f] }

/-- `bios.read32(off)` (20_memory.md R34). -/
def biosRead32 (s : State) (off : Nat) : Word := s.mem.readWord (s.platform.bios.base.toNat + off)

/-- `BusRead32(BIOS, addr)` (20_memory.md R36), its checks in that order. -/
def busRead32 (s : State) (addr : Word) : Except FatalFault Word :=
  if aligned addr = false then .error (.unalignedAccess addr)
  else if inRange s.platform.bios addr = false then .error (.unmappedRead addr .bios)
  else .ok (biosRead32 s (offsetIn s.platform.bios addr))

/-- `BusWrite32(addr, v)` (20_memory.md R37), its checks in that order. An accepted store changes no state: its whole
effect is the diagnostic (R38). -/
def busWrite32 (s : State) (addr v : Word) : Except FatalFault State :=
  if aligned addr = false then .error (.unalignedAccess addr)
  else if inRange s.platform.memctl addr = true then .ok (s.emit (.unimplementedStore .normal addr v))
  else if addr = ramSizeAddr then .ok (s.emit (.unimplementedStore .low addr v))
  else .error (.unmappedWrite addr v)

/-- A handler's last act: it returns with the state, or raises in the state it began in (40_cycle_and_dispatch.md R88). -/
def settle (s : State) : Except FatalFault State → Result
  | .ok t => .next t
  | .error f => .next (takeFault f s)

end Sys2Proof.Machine
end

