-- ==== Sys2Proof/Machine/Operands.lean ====
section
/-! DEFINITION. The operand forms: the two views of the immediate, the effective address, the shift and the jump address. -/

namespace Sys2Proof.Machine

/-- `imm_zx` (30_encoding.md R66). -/
def immZx (imm : Imm16) : Word := zext16 imm

/-- `imm_sx` (30_encoding.md R67). -/
def immSx (imm : Imm16) : Word := sext16 imm

/-- `ea = x[rs] +32 imm_sx` (43_store.md R120): base plus displacement, wrapping. -/
def effectiveAddress (s : State) (rs : RegIdx) (imm : Imm16) : Word := s.reg rs + immSx imm

/-- `v << n` for a constant `n` of 0 to 31 (00_scope.md section 6). -/
def shiftLeft (v : Word) (n : Nat) : Word := v <<< n

/-- The address a jump writes (44_control_transfer.md R125): bits 31:28 of `p`, then the target, then two zero bits. -/
def jumpAddress (p : Word) (target : BitVec 26) : Word := p.extractLsb' 28 4 ++ target ++ 0#2

end Sys2Proof.Machine
end

