-- ==== Sys2Proof/Machine/Flags.lean ====
section
/-! DEFINITION. Flags: the block has none, no condition code, carry or overflow (10_state.md R23), so no instruction
computes one. The one classification of an instruction that the spec gives is the NOP label of the trace event. -/

namespace Sys2Proof.Machine

/-- `is_nop` (40_cycle_and_dispatch.md R93): a label on the trace event, which never changes dispatch or execution. -/
def isNop (w : Word) : Bool :=
  (fields w).opcode == 0 && (fields w).funct == 0 && (fields w).shamt == 0 && (fields w).rt == 0

end Sys2Proof.Machine
end

