-- ==== Sys2Proof/Machine/Control.lean ====
section
/-! DEFINITION. J and BNE (44_control_transfer.md). The delay slot is the consequence of the cycle order (R126). -/

namespace Sys2Proof.Machine

/-- J (R125): `pc` is the value step 5 of this cycle wrote. -/
def execJ (target : BitVec 26) (s : State) : Result :=
  .next (s.setPc (jumpAddress s.pc target))

/-- BNE (R127): nothing when the operands are equal; the taken path raises UnhandledInstruction with the address of the
executing instruction. The immediate is never read. -/
def execBne (rs rt : RegIdx) (_imm : Imm16) (s : State) : Result :=
  settle s (if s.reg rs = s.reg rt then .ok s else .error (.unhandledInstruction s.instr.addr 0x05 none))

end Sys2Proof.Machine
end

