-- ==== Sys2Proof/Machine/ImmediateAlu.lean ====
section
/-! DEFINITION. LUI, ORI, ADDIU (41_immediate_alu.md). None of them can fault. -/

namespace Sys2Proof.Machine

/-- LUI (R100). -/
def execLui (rt : RegIdx) (imm : Imm16) (s : State) : Result :=
  .next (s.setReg rt (shiftLeft (immZx imm) 16))

/-- ORI (R101). -/
def execOri (rt rs : RegIdx) (imm : Imm16) (s : State) : Result :=
  .next (s.setReg rt (s.reg rs ||| immZx imm))

/-- ADDIU (R102): wrapping, no overflow fault. -/
def execAddiu (rt rs : RegIdx) (imm : Imm16) (s : State) : Result :=
  .next (s.setReg rt (s.reg rs + immSx imm))

end Sys2Proof.Machine
end

