-- ==== Sys2Proof/Machine/SpecialAlu.lean ====
section
/-! DEFINITION. OR, SLL (42_special_alu.md). Neither can fault. -/

namespace Sys2Proof.Machine

/-- OR (R110). -/
def execOr (rd rs rt : RegIdx) (s : State) : Result :=
  .next (s.setReg rd (s.reg rs ||| s.reg rt))

/-- SLL (R111): the source is `rt`; the write is performed for the NOP word too (40_cycle_and_dispatch.md R93). -/
def execSll (rd rt : RegIdx) (shamt : BitVec 5) (s : State) : Result :=
  .next (s.setReg rd (shiftLeft (s.reg rt) shamt.toNat))

end Sys2Proof.Machine
end

