-- ==== Sys2Proof/Machine/Store.lean ====
section
/-! DEFINITION. SW (43_store.md), the only instruction that reaches the bus's write path. -/

namespace Sys2Proof.Machine

/-- SW (R120). -/
def execSw (rt : RegIdx) (imm : Imm16) (rs : RegIdx) (s : State) : Result :=
  settle s (busWrite32 s (effectiveAddress s rs imm) (s.reg rt))

end Sys2Proof.Machine
end

