-- ==== Sys2Proof/Machine/System.lean ====
section
/-! DEFINITION. MTC0 (45_system_cop0.md). The other coprocessor-0 words select no instruction and fault at dispatch (R136). -/

namespace Sys2Proof.Machine

/-- MTC0 (R135): writes `sr` when the number is the status register's; any other number is accepted with no effect. -/
def execMtc0 (rt rd : RegIdx) (s : State) : Result :=
  .next (if rd = statusRegister then s.setSr (s.reg rt) else s)

end Sys2Proof.Machine
end

