-- ==== Sys2Proof/Machine/Dispatch.lean ====
section
/-! DEFINITION. exec: the handler of each instruction, step 6 of a cycle (40_cycle_and_dispatch.md R84, R88). -/

namespace Sys2Proof.Machine

def exec (i : Instr) (s : State) : Host.Outcome State Fault Refusal :=
  match i with
  | .lui rt imm => Sys2Proof.Machine.execLui rt imm s
  | .ori rt rs imm => Sys2Proof.Machine.execOri rt rs imm s
  | .addiu rt rs imm => Sys2Proof.Machine.execAddiu rt rs imm s
  | .sw rt imm rs => Sys2Proof.Machine.execSw rt imm rs s
  | .j target => Sys2Proof.Machine.execJ target s
  | .bne rs rt imm => Sys2Proof.Machine.execBne rs rt imm s
  | .mtc0 rt rd => Sys2Proof.Machine.execMtc0 rt rd s
  | .or rd rs rt => Sys2Proof.Machine.execOr rd rs rt s
  | .sll rd rt shamt => Sys2Proof.Machine.execSll rd rt shamt s

end Sys2Proof.Machine
end

