-- ==== Sys2Proof/Machine/Cycle.lean ====
section
/-! DEFINITION. One cycle: the six steps of 40_cycle_and_dispatch.md R84. -/

namespace Sys2Proof.Machine

/-- The trace event of the instruction about to execute (R92): the mnemonic is the handler's name if the lookup of R85 hits. -/
def traceEvent (l : Latch) : Event :=
  .trace l.addr (fields l.word).opcode (lookupHandler (fields l.word)).toOption (isNop l.word)

/-- Steps 1 to 3: cell 0 is cleared and the instruction leaves the latch; then the optional trace event (R92). -/
def beginCycle (s : State) : State :=
  { s with
    x := s.x.set 0 0
    instr := s.latch
    events := if s.platform.trace then s.events ++ [traceEvent s.latch] else s.events }

/-- Steps 4 and 5 once the fetch at `pc` has returned `w`: the latch takes the word, `pc` advances by 4, wrapping. -/
def advance (w : Word) (s : State) : State :=
  { s with
    latch := ⟨w, s.pc⟩
    pc := s.pc + 4 }

/-- Step 6, `Execute(instr)` (R85): a word that selects no instruction raises UnhandledInstruction with its own fetch address. -/
def execute (s : State) : Result :=
  match decodeWord s.instr.word with
  | .ok i => exec i s
  | .error m => .next (takeFault (missFault s.instr.addr m) s)

/-- The end of the cycle: the instruction taken in step 3 is gone (10_state.md R25). -/
def endCycle : Result → Result
  | .next s => .next { s with instr := emptyLatch }
  | .fault f => .fault f
  | .refused r => .refused r

/-- `Cycle()` (R84). A fetch that raises leaves the latch and `pc` as they were and executes nothing (60_exceptions.md R149). -/
def cycle (s : State) : Result :=
  endCycle
    (match busRead32 (beginCycle s) s.pc with
     | .error f => .next (takeFault f (beginCycle s))
     | .ok w => execute (advance w (beginCycle s)))

/-- The run loop between two commands (R86): a cycle while Running, nothing while Stopped (R80). -/
def runLoop (s : State) : Result :=
  match s.run with
  | .running => cycle s
  | .stopped => .next s

end Sys2Proof.Machine
end

