-- ==== Sys2Proof/Machine/HostCommands.lean ====
section
/-! DEFINITION. The host's side: the four commands at a cycle boundary, and what the host may read (00_scope.md R8). -/

namespace Sys2Proof.Machine

/-- The one command served when several are pending (40_cycle_and_dispatch.md R87): reset, then pause, then start, then step. -/
def HostInput.select (c : HostInput) : Command :=
  match c.reset with
  | some b => .reset b
  | none =>
    if c.pause then .pause
    else if c.start then .start
    else if c.step then .step
    else .none

/-- The configuration and the image a `reset` may offer: the constraints of 00_scope.md R5, the image in canonical form. -/
def Boot.wellFormed (b : Boot) : Bool := b.platform.wellFormed && Memory.wf b.image

/-- The register cells after the `reset` command number `n` (10_state.md R24): cell 0 is 0, the others are free values. -/
@[irreducible] def resetRegs (n : Nat) : Vector Word 32 :=
  Vector.ofFn fun i => if i.val = 0 then 0 else Config.freeResetReg n i.val

/-- Every piece of state at its reset value (70_reset_and_hazards.md R170). What has been sent to the host stays sent, and
what the host will send is still to come. -/
def resetTo (b : Boot) (s : State) : State :=
  { x := resetRegs s.resets
    pc := b.platform.bios.base
    latch := emptyLatch
    sr := 0
    run := .stopped
    fault := none
    platform := b.platform
    mem := b.image
    instr := emptyLatch
    events := s.events
    inputs := s.inputs
    resets := s.resets + 1 }

/-- `reset`, honoured in any state (R170). A configuration that R5 forbids has no meaning and stops the model (log entry 8). -/
def serveReset (b : Boot) (s : State) : Result :=
  if b.wellFormed then .next (resetTo b s) else .fault .illegalConfiguration

/-- `pause` (40_cycle_and_dispatch.md R82): at a boundary the engine stops; a Stopped engine stays Stopped. -/
def servePause (s : State) : Result := .next { s with run := .stopped }

/-- The BIOS is present (40_cycle_and_dispatch.md R81). -/
def biosPresent (s : State) : Bool := 0 < s.platform.bios.len

/-- `start` (40_cycle_and_dispatch.md R80, R81): changes `run` only; without a BIOS it reports and changes nothing. -/
def serveStart (s : State) : Result :=
  match s.run with
  | .running => .next s
  | .stopped => .next (if biosPresent s then { s with run := .running } else s.emit .cannotStart)

/-- `step` (40_cycle_and_dispatch.md R83): one cycle while Stopped, ignored while Running. -/
def serveStep (s : State) : Result :=
  match s.run with
  | .running => .next s
  | .stopped => cycle s

/-- What one step does at a boundary where `c` is pending; the commands that are not served are dropped (R87). -/
def serve (c : HostInput) (s : State) : Result :=
  match c.select with
  | .reset b => serveReset b s
  | .pause => servePause s
  | .start => serveStart s
  | .step => serveStep s
  | .none => runLoop s

/-- The commands pending at the next boundary. -/
def State.pending (s : State) : HostInput := s.inputs.headD noInput

/-- The state once the pending commands have been taken from the list. -/
def State.takeInput (s : State) : State := { s with inputs := s.inputs.tail }

/-- One step of the machine: a command, or else one pass of the run loop. -/
def boundary (s : State) : Result := serve s.pending s.takeInput

/-- What the host may read between cycles (10_state.md R21). -/
structure HostView where
  pc : Word
  x : Vector Word 32
  deriving DecidableEq, Repr

/-- The host's queries (10_state.md R21). -/
def hostView (s : State) : HostView := ⟨s.pc, s.x⟩

/-- The machine about to execute the word `w`: it is the pending instruction, the engine runs and no command is pending. -/
def placeWord (s : State) (w : Word) : State :=
  { s with
    latch := ⟨w, s.latch.addr⟩
    run := .running
    inputs := [] }

end Sys2Proof.Machine
end

