-- ==== Sys2Proof/Machine/Step.lean ====
section
/-! DEFINITION. One step of the machine, and how the host places one instruction (log entry 12). -/

namespace Sys2Proof.Machine

/-- One step: the command served at the boundary, or else one cycle while Running, or nothing while Stopped. -/
def step (s : State) : Host.Outcome State Fault Refusal := boundary s

/-- `s` with the instruction of bits `w` where the next step takes its instruction from: the pending-instruction latch.
The engine is set Running and no command is pending, so that the very next step is a cycle. The accompanying fetch at
`pc` is the image's own; at reset `pc` is the first word of the image. -/
def State.withFetchWord (s : State) (nbits w : Nat) : State := placeWord s (BitVec.ofNat 32 (w % 2 ^ nbits))

end Sys2Proof.Machine
end

