-- ==== Sys2Proof/Safety.lean ====
section
/-! DEFINITION. The terms in which statements about the machine are made: what a cycle is due to do, what an instruction
leaves unchanged, the invariant of the machine, and what no instruction and no rule reads. -/

namespace Sys2Proof.Machine

/-- A step at `s` is one cycle (40_cycle_and_dispatch.md R80, R83): the engine is Running and no command is served, or it is
Stopped and the command served is `step`. -/
abbrev CycleDue (s : State) : Prop :=
  (s.run = .running ∧ s.pending.select = .none) ∨ (s.run = .stopped ∧ s.pending.select = .step)

/-- The step at `s` serves a `reset`. -/
def ResetDue (s : State) : Prop := ∃ b, s.pending.select = .reset b

/-- Everything but the general registers, `pc`, `sr`, `run`, `fault` and the events is the same in both states, each byte of
the image included. No instruction changes any of it. -/
def SameBackground (s t : State) : Prop :=
  t.latch = s.latch ∧ t.platform = s.platform ∧ t.instr = s.instr ∧ t.inputs = s.inputs ∧ t.resets = s.resets ∧
  t.mem = s.mem ∧ ∀ a, t.mem.readByte a = s.mem.readByte a

/-- No fault, diagnostic or other event separates the two states, and the engine state is the same. -/
def SameSignals (s t : State) : Prop := t.run = s.run ∧ t.fault = s.fault ∧ t.events = s.events

/-- The two states differ in register `r` at most. -/
def OnlyReg (r : RegIdx) (s t : State) : Prop :=
  (∀ q, q ≠ r → t.reg q = s.reg q) ∧ t.pc = s.pc ∧ t.sr = s.sr ∧ SameSignals s t ∧ SameBackground s t

/-- The two states differ in `pc` at most. -/
def OnlyPc (s t : State) : Prop :=
  (∀ q, t.reg q = s.reg q) ∧ t.sr = s.sr ∧ SameSignals s t ∧ SameBackground s t

/-- The two states differ in `sr` at most. -/
def OnlySr (s t : State) : Prop :=
  (∀ q, t.reg q = s.reg q) ∧ t.pc = s.pc ∧ SameSignals s t ∧ SameBackground s t

/-- From `s` to `t` the block sent the events `es` and nothing else changed. -/
def OnlyEvents (es : List Event) (s t : State) : Prop :=
  (∀ q, t.reg q = s.reg q) ∧ t.pc = s.pc ∧ t.sr = s.sr ∧ t.run = s.run ∧ t.fault = s.fault ∧
  t.events = s.events ++ es ∧ SameBackground s t

/-- From `s` to `t` the fatal fault `f` was taken and nothing else changed (60_exceptions.md R148). -/
def OnlyFault (f : FatalFault) (s t : State) : Prop :=
  (∀ q, t.reg q = s.reg q) ∧ t.pc = s.pc ∧ t.sr = s.sr ∧ t.run = .stopped ∧
  t.fault = (match s.fault with | none => some f | some g => some g) ∧
  t.events = s.events ++ [.fault f] ∧ SameBackground s t

/-- A fault or a diagnostic, as against the trace event and the report of `start` (00_scope.md R8). -/
def isSignal : Event → Bool
  | .fault _ => true
  | .unimplementedStore _ _ _ => true
  | .trace _ _ _ _ => false
  | .cannotStart => false

/-- The register an instruction writes (10_state.md R14). -/
def destination : Instr → Option RegIdx
  | .lui rt _ => some rt
  | .ori rt _ _ => some rt
  | .addiu rt _ _ => some rt
  | .sw _ _ _ => none
  | .j _ => none
  | .bne _ _ _ => none
  | .mtc0 _ _ => none
  | .or rd _ _ => some rd
  | .sll rd _ _ => some rd

/-- The handler that executes an instruction (00_scope.md R1, 30_encoding.md R71 to R73). -/
def handlerOf : Instr → Handler
  | .lui _ _ => .lui
  | .ori _ _ _ => .ori
  | .addiu _ _ _ => .addiu
  | .sw _ _ _ => .sw
  | .j _ => .j
  | .bne _ _ _ => .bne
  | .mtc0 _ _ => .mtc0
  | .or _ _ _ => .or
  | .sll _ _ _ => .sll

/-- The latch holds its reset content, or the image word at its own address (10_state.md R17). -/
def LatchGenuine (s : State) : Prop :=
  s.latch = emptyLatch ∨ busRead32 s s.latch.addr = .ok s.latch.word

/-- A fault record is one the block can raise under this configuration (60_exceptions.md R141 to R144). -/
def FaultGenuine (s : State) : FatalFault → Prop
  | .unalignedAccess a => a.toNat % 4 ≠ 0
  | .unmappedRead a d => a.toNat % 4 = 0 ∧ inRange s.platform.bios a = false ∧ d = .bios
  | .unmappedWrite a _ => a.toNat % 4 = 0 ∧ inRange s.platform.memctl a = false ∧ a ≠ ramSizeAddr
  | .unhandledInstruction a op sub =>
    ∃ w, busRead32 s a = .ok w ∧ (fields w).opcode = op ∧
      ((decodeWord w = .error (.primary op) ∧ sub = none) ∨
       (op = 0x00 ∧ ∃ g, decodeWord w = .error (.special g) ∧ sub = some g) ∨
       (op = 0x10 ∧ ∃ q, decodeWord w = .error (.cop0 q) ∧ sub = some (q.setWidth 6)) ∨
       (∃ rs rt imm, decodeWord w = .ok (.bne rs rt imm) ∧ op = 0x05 ∧ sub = none))

/-- The invariant of the machine between cycles. -/
structure Inv (s : State) : Prop where
  /-- The configuration obeys R5. -/
  platform : s.platform.wellFormed = true
  /-- The image is in canonical form. -/
  image : Memory.wf s.mem = true
  /-- `pc` is a multiple of 4 (10_state.md R18). -/
  pcAligned : s.pc.toNat % 4 = 0
  /-- No decoded instruction survives its cycle (10_state.md R25). -/
  instrGone : s.instr = emptyLatch
  /-- The pending instruction comes from the image (10_state.md R17). -/
  latch : LatchGenuine s
  /-- The fault record tells what the configuration and the image bear out. -/
  fault : ∀ f, s.fault = some f → FaultGenuine s f

/-- The state without what no rule reads: `sr` (10_state.md R19), the fault record (R22), the events sent, and whether the
trace event is emitted (40_cycle_and_dispatch.md R92). -/
def eraseUnread (s : State) : State :=
  { s with
    sr := 0
    fault := none
    events := []
    platform := { s.platform with trace := false } }

/-- The outcome of a step without what no rule reads. -/
def eraseOutcome : Result → Result
  | .next t => .next (eraseUnread t)
  | .fault f => .fault f
  | .refused r => .refused r

/-- The state with another content in cell 0. -/
def withCell0 (s : State) (v : Word) : State := s.setReg 0 v

/-- The state at the start of step 6, written out: steps 1 to 5 of a cycle begun at `s` whose fetch returned `w`
(40_cycle_and_dispatch.md R84), the pending commands taken. -/
def atExecute (s : State) (w : Word) : State :=
  { x := s.x.set 0 0
    pc := s.pc + 4
    latch := ⟨w, s.pc⟩
    sr := s.sr
    run := s.run
    fault := s.fault
    platform := s.platform
    mem := s.mem
    instr := s.latch
    events := if s.platform.trace then s.events ++ [traceEvent s.latch] else s.events
    inputs := s.inputs.tail
    resets := s.resets }

/-- A safe run: no fatal fault has been recorded since the last reset (60_exceptions.md R152). -/
def FaultFree (s : State) : Prop := s.fault = none

end Sys2Proof.Machine
end

