-- ==== Sys2Proof/Certificates/Slice0/Obligations.lean ====
section
/-! DEFINITION. The statements for the provers, each from the numbered rules of spec/ named in its docstring. `D<n>` is a
decision of spec/92_eei_decisions.md. Where a statement speaks of commands (`pending`, `CycleDue`), of events, of the transient
`instr` or of the trace flag, the form in which State holds them is the model's choice: log entries 7, 6, 11 and 9. -/

open Sys2Proof Sys2Proof.Machine

/-! ## Encoding -/

/-- Words written out in spec/95_test_vectors.md, one for each instruction and one for each kind of illegal word. -/
def Obligations.DecodesWordsOfTheSpec : Prop :=
  decodeWord 0x3C011234 = .ok (.lui 1 0x1234) ∧
  decodeWord 0x34215678 = .ok (.ori 1 1 0x5678) ∧
  decodeWord 0x24020005 = .ok (.addiu 2 0 5) ∧
  decodeWord 0xAC221010 = .ok (.sw 2 0x1010 1) ∧
  decodeWord 0x0BF00004 = .ok (.j 0x3F00004) ∧
  decodeWord 0x1422FFFD = .ok (.bne 1 2 0xFFFD) ∧
  decodeWord 0x40886000 = .ok (.mtc0 8 12) ∧
  decodeWord 0x00221825 = .ok (.or 3 1 2) ∧
  decodeWord 0x00021880 = .ok (.sll 3 2 2) ∧
  decodeWord 0x8C220000 = .error (.primary 0x23) ∧
  decodeWord 0x0000000C = .error (.special 0x0C) ∧
  decodeWord 0x40004000 = .error (.cop0 0)

/-- R77, R71 to R73: the canonical word of every instruction decodes to it, with every operand at every value. -/
def Obligations.DecodeInvertsEncode : Prop :=
  ∀ i : Instr, decodeWord (encode i) = .ok i

/-- R75: a word is an instruction exactly when it agrees with the canonical word on every bit that is not ignored. -/
def Obligations.DecodeReadsExactlyTheUsedBits : Prop :=
  ∀ (w : Word) (i : Instr), decodeWord w = .ok i ↔ w &&& usedBits i = encode i

/-- R75: a decoder built from match and mask accepts exactly the words the dispatch tables and the selector accept. -/
def Obligations.DecoderAcceptsTheOpcodeTable : Prop :=
  ∀ w : Word, (∃ i, decodeWord w = .ok i) ↔ ∃ r ∈ opcodeTable, w &&& r.mask = r.matchBits

/-- R62 to R70: every field of every word is the number its own bits make, whatever the other bits are. -/
def Obligations.FieldsAreBitSlices : Prop :=
  ∀ w : Word,
    (fields w).opcode.toNat = w.toNat / 2 ^ 26 ∧
    (fields w).rs.toNat = w.toNat / 2 ^ 21 % 2 ^ 5 ∧
    (fields w).rt.toNat = w.toNat / 2 ^ 16 % 2 ^ 5 ∧
    (fields w).rd.toNat = w.toNat / 2 ^ 11 % 2 ^ 5 ∧
    (fields w).shamt.toNat = w.toNat / 2 ^ 6 % 2 ^ 5 ∧
    (fields w).funct.toNat = w.toNat % 2 ^ 6 ∧
    (fields w).target.toNat = w.toNat % 2 ^ 26 ∧
    (fields w).immZx.toNat = w.toNat % 2 ^ 16 ∧
    (fields w).immSx.toNat =
      (if w.toNat % 2 ^ 16 < 0x8000 then w.toNat % 2 ^ 16 else w.toNat % 2 ^ 16 + 0xFFFF0000) ∧
    (fields w).word = w

/-- R74, R136: exactly which words select no instruction, and the name each is rejected by. -/
def Obligations.IllegalWordsAreRejectedByName : Prop :=
  ∀ (w : Word) (m : Miss), decodeWord w = .error m ↔
    ((fields w).opcode ∉ ([0x00, 0x02, 0x05, 0x09, 0x0D, 0x0F, 0x10, 0x2B] : List Code6) ∧
      m = .primary (fields w).opcode) ∨
    ((fields w).opcode = 0x00 ∧ (fields w).funct ∉ ([0x00, 0x25] : List Code6) ∧ m = .special (fields w).funct) ∨
    ((fields w).opcode = 0x10 ∧ (fields w).rs ≠ 4 ∧ m = .cop0 (fields w).rs)

/-! ## The instructions: each answers a next state with the effect of its rule, and changes nothing else -/

/-- R100, LUI: the encoding, and the effect for every operand, register 0 included, with no flag and no exception. -/
def Obligations.LuiLoadsTheUpperHalf : Prop :=
  (∀ w : Word, w &&& 0xFC000000 = 0x3C000000 →
    decodeWord w = .ok (.lui (w.extractLsb' 16 5) (w.extractLsb' 0 16))) ∧
  ∀ (rt : RegIdx) (imm : Imm16) (s : State), ∃ t, exec (.lui rt imm) s = .next t ∧
    (t.reg rt).toNat = imm.toNat * 2 ^ 16 ∧ OnlyReg rt s t

/-- R101, ORI: the encoding, and the effect for every operand; the immediate is zero-extended and the old value is read first. -/
def Obligations.OriOrsTheZeroExtendedImmediate : Prop :=
  (∀ w : Word, w &&& 0xFC000000 = 0x34000000 →
    decodeWord w = .ok (.ori (w.extractLsb' 16 5) (w.extractLsb' 21 5) (w.extractLsb' 0 16))) ∧
  ∀ (rt rs : RegIdx) (imm : Imm16) (s : State), ∃ t, exec (.ori rt rs imm) s = .next t ∧
    t.reg rt = s.reg rs ||| BitVec.ofNat 32 imm.toNat ∧ OnlyReg rt s t

/-- R102, ADDIU: the encoding, and the effect for every operand; the sum wraps and no overflow is reported. -/
def Obligations.AddiuAddsTheSignExtendedImmediate : Prop :=
  (∀ w : Word, w &&& 0xFC000000 = 0x24000000 →
    decodeWord w = .ok (.addiu (w.extractLsb' 16 5) (w.extractLsb' 21 5) (w.extractLsb' 0 16))) ∧
  ∀ (rt rs : RegIdx) (imm : Imm16) (s : State), ∃ t, exec (.addiu rt rs imm) s = .next t ∧
    (t.reg rt).toNat =
      ((s.reg rs).toNat + (if imm.toNat < 0x8000 then imm.toNat else imm.toNat + 0xFFFF0000)) % 2 ^ 32 ∧
    OnlyReg rt s t

/-- R110, OR: the encoding, in which the shift amount is ignored, and the effect; both sources are read first. -/
def Obligations.OrOrsTwoRegisters : Prop :=
  (∀ w : Word, w &&& 0xFC00003F = 0x00000025 →
    decodeWord w = .ok (.or (w.extractLsb' 11 5) (w.extractLsb' 21 5) (w.extractLsb' 16 5))) ∧
  ∀ (rd rs rt : RegIdx) (s : State), ∃ t, exec (.or rd rs rt) s = .next t ∧
    t.reg rd = s.reg rs ||| s.reg rt ∧ OnlyReg rd s t

/-- R111, SLL: the encoding, in which `rs` is ignored, and the effect for every shift amount. -/
def Obligations.SllShiftsLeft : Prop :=
  (∀ w : Word, w &&& 0xFC00003F = 0x00000000 →
    decodeWord w = .ok (.sll (w.extractLsb' 11 5) (w.extractLsb' 16 5) (w.extractLsb' 6 5))) ∧
  ∀ (rd rt : RegIdx) (shamt : BitVec 5) (s : State), ∃ t, exec (.sll rd rt shamt) s = .next t ∧
    (t.reg rd).toNat = (s.reg rt).toNat * 2 ^ shamt.toNat % 2 ^ 32 ∧ OnlyReg rd s t

/-- R120, R37, R38: a store to an aligned address of the MEMCTL range, or else to the RAM-size address, completes, and its
whole effect is the diagnostic: no byte of memory changes. The effective address wraps (decision D16); the severities are
the spec's names (D25) and a MEMCTL address is NORMAL even if it is the RAM-size address (D5). -/
def Obligations.SwToAStubDeviceIsAccepted : Prop :=
  ∀ (rt : RegIdx) (imm : Imm16) (rs : RegIdx) (s : State) (ea : Word),
    ea.toNat =
      ((s.reg rs).toNat + (if imm.toNat < 0x8000 then imm.toNat else imm.toNat + 0xFFFF0000)) % 2 ^ 32 →
    ea.toNat % 4 = 0 →
    (s.platform.memctl.base.toNat ≤ ea.toNat ∧ ea.toNat < s.platform.memctl.base.toNat + s.platform.memctl.len →
      ∃ t, exec (.sw rt imm rs) s = .next t ∧ OnlyEvents [.unimplementedStore .normal ea (s.reg rt)] s t) ∧
    (¬ (s.platform.memctl.base.toNat ≤ ea.toNat ∧
          ea.toNat < s.platform.memctl.base.toNat + s.platform.memctl.len) → ea = 0x1F801060 →
      ∃ t, exec (.sw rt imm rs) s = .next t ∧ OnlyEvents [.unimplementedStore .low ea (s.reg rt)] s t)

/-- R120, R37, R141, R143, R148: where a store traps. A misaligned address is reported first; an aligned address outside both
targets, the BIOS range included, is UnmappedWrite with the value (D22). The engine stops and nothing is stored. -/
def Obligations.SwElsewhereTakesAFault : Prop :=
  ∀ (rt : RegIdx) (imm : Imm16) (rs : RegIdx) (s : State) (ea : Word),
    ea.toNat =
      ((s.reg rs).toNat + (if imm.toNat < 0x8000 then imm.toNat else imm.toNat + 0xFFFF0000)) % 2 ^ 32 →
    (ea.toNat % 4 ≠ 0 →
      ∃ t, exec (.sw rt imm rs) s = .next t ∧ OnlyFault (.unalignedAccess ea) s t) ∧
    (ea.toNat % 4 = 0 →
      ¬ (s.platform.memctl.base.toNat ≤ ea.toNat ∧
          ea.toNat < s.platform.memctl.base.toNat + s.platform.memctl.len) → ea ≠ 0x1F801060 →
      ∃ t, exec (.sw rt imm rs) s = .next t ∧ OnlyFault (.unmappedWrite ea (s.reg rt)) s t)

/-- R125, J: bits 31:28 of the `pc` that step 5 wrote, bits 27:2 the target, bits 1:0 zero; nothing else changes. -/
def Obligations.JWritesThePc : Prop :=
  ∀ (target : BitVec 26) (s : State), ∃ t, exec (.j target) s = .next t ∧
    t.pc.toNat = s.pc.toNat / 2 ^ 28 * 2 ^ 28 + target.toNat * 4 ∧ OnlyPc s t

/-- R77, R125: a jump assembled for an aligned address of the segment `pc` is in lands there. -/
def Obligations.AssembledJumpLandsAtItsAddress : Prop :=
  ∀ (addr : Word) (s : State), addr.toNat % 4 = 0 → s.pc.toNat / 2 ^ 28 = addr.toNat / 2 ^ 28 →
    ∃ t, exec (assembleJ addr) s = .next t ∧ t.pc = addr

/-- R127, BNE with equal operands: nothing, whatever the immediate; a register compared with itself always is. -/
def Obligations.BneOfEqualsDoesNothing : Prop :=
  ∀ (rs rt : RegIdx) (imm : Imm16) (s : State),
    (s.reg rs = s.reg rt → exec (.bne rs rt imm) s = .next s) ∧ exec (.bne rs rs imm) s = .next s

/-- R127 (decision D14), BNE with unequal operands: UnhandledInstruction with the address the executing word was fetched
from, opcode 0x05 and no sub-opcode; no register and no `pc` change, whatever the immediate. -/
def Obligations.BneOfUnequalsTakesAFault : Prop :=
  ∀ (rs rt : RegIdx) (imm : Imm16) (s : State), s.reg rs ≠ s.reg rt →
    ∃ t, exec (.bne rs rt imm) s = .next t ∧ OnlyFault (.unhandledInstruction s.instr.addr 0x05 none) s t

/-- R135 (the number 12 is decision D15), MTC0: `sr` takes the register's value for number 12; every other number is accepted
and nothing changes. -/
def Obligations.MtcZeroWritesTheStatusRegister : Prop :=
  ∀ (rt rd : RegIdx) (s : State),
    (rd = 12 → ∃ t, exec (.mtc0 rt rd) s = .next t ∧ t.sr = s.reg rt ∧ OnlySr s t) ∧
    (rd ≠ 12 → exec (.mtc0 rt rd) s = .next s)

/-- R14, R15, R17, R19, R38, R90, R147: over all instructions, who writes what. Only the destination register changes, only J
writes `pc`, only MTC0 of register 12 writes `sr`, only SW and BNE signal anything, and nothing writes the latch, the image, the
configuration or the host's commands. -/
def Obligations.EachInstructionWritesOnlyItsOwn : Prop :=
  ∀ (i : Instr) (s t : State), exec i s = .next t →
    SameBackground s t ∧
    (∀ q, destination i ≠ some q → t.reg q = s.reg q) ∧
    ((∀ g, i ≠ .j g) → t.pc = s.pc) ∧
    ((∀ rt, i ≠ .mtc0 rt 12) → t.sr = s.sr) ∧
    (¬ SameSignals s t → (∃ rt imm rs, i = .sw rt imm rs) ∨ (∃ rs rt imm, i = .bne rs rt imm))

/-! ## The bus -/

/-- R34, R45 (the byte order is the spec's decision D8; the image held as bytes at absolute addresses is log entry 10): the
word the BIOS returns is made of the four bytes the image holds from its address on, the lowest address least significant. -/
def Obligations.BiosReadAssemblesTheImage : Prop :=
  ∀ (s : State) (off : Nat),
    (biosRead32 s off).toNat =
      (s.mem.readByte (s.platform.bios.base.toNat + off)).toNat +
      2 ^ 8 * (s.mem.readByte (s.platform.bios.base.toNat + off + 1)).toNat +
      2 ^ 16 * (s.mem.readByte (s.platform.bios.base.toNat + off + 2)).toNat +
      2 ^ 24 * (s.mem.readByte (s.platform.bios.base.toNat + off + 3)).toNat

/-- R36: the read path's checks in order; only an aligned address of the BIOS range returns a word, which is the image's at the
address (its bytes by R45, decision D8, log entry 10). -/
def Obligations.BusReadReachesTheBiosOnly : Prop :=
  ∀ (s : State) (a : Word),
    (a.toNat % 4 ≠ 0 → busRead32 s a = .error (.unalignedAccess a)) ∧
    (a.toNat % 4 = 0 →
      ¬ (s.platform.bios.base.toNat ≤ a.toNat ∧ a.toNat < s.platform.bios.base.toNat + s.platform.bios.len) →
      busRead32 s a = .error (.unmappedRead a .bios)) ∧
    (a.toNat % 4 = 0 → s.platform.bios.base.toNat ≤ a.toNat →
      a.toNat < s.platform.bios.base.toNat + s.platform.bios.len →
      ∃ w, busRead32 s a = .ok w ∧ w = biosRead32 s (a.toNat - s.platform.bios.base.toNat) ∧
        w.toNat = (s.mem.readByte a.toNat).toNat + 2 ^ 8 * (s.mem.readByte (a.toNat + 1)).toNat +
          2 ^ 16 * (s.mem.readByte (a.toNat + 2)).toNat + 2 ^ 24 * (s.mem.readByte (a.toNat + 3)).toNat)

/-- R37, R38 (severities D25, overlap D5): the write path's checks in order; an accepted store changes nothing. -/
def Obligations.BusWriteProbesInOrder : Prop :=
  ∀ (s : State) (a v : Word),
    (a.toNat % 4 ≠ 0 → busWrite32 s a v = .error (.unalignedAccess a)) ∧
    (a.toNat % 4 = 0 →
      (if s.platform.memctl.base.toNat ≤ a.toNat ∧ a.toNat < s.platform.memctl.base.toNat + s.platform.memctl.len then
        ∃ t, busWrite32 s a v = .ok t ∧ OnlyEvents [.unimplementedStore .normal a v] s t
      else if a = 0x1F801060 then
        ∃ t, busWrite32 s a v = .ok t ∧ OnlyEvents [.unimplementedStore .low a v] s t
      else busWrite32 s a v = .error (.unmappedWrite a v)))

/-- R39: a misaligned access is never performed and reports UnalignedAccess whatever the ranges and the value are. -/
def Obligations.MisalignmentIsReportedFirst : Prop :=
  ∀ (s : State) (a v : Word),
    (a.toNat % 4 ≠ 0 →
      busRead32 s a = .error (.unalignedAccess a) ∧ busWrite32 s a v = .error (.unalignedAccess a)) ∧
    (∀ w, busRead32 s a = .ok w → a.toNat % 4 = 0) ∧
    (∀ t, busWrite32 s a v = .ok t → a.toNat % 4 = 0)

/-- R40: in a state of the invariant no fetch is misaligned. -/
def Obligations.FetchIsNeverMisaligned : Prop :=
  ∀ (s : State) (a : Word), Inv s → busRead32 s s.pc ≠ .error (.unalignedAccess a)

/-! ## Faults -/

/-- R148 (keeping the first record is decision D22): taking a fatal fault. -/
def Obligations.TakingAFault : Prop :=
  ∀ (f : FatalFault) (s : State), OnlyFault f s (takeFault f s)

/-- R149 first row, R151 (no rollback is decision D23): a fetch that raises, whatever the latch holds. Cell 0 is cleared, the
pending instruction is still latched and not executed, `pc` has not moved, and the next fetch would raise the same.
Log entry 7 for when a cycle is due. -/
def Obligations.FetchFaultLeavesTheLatch : Prop :=
  ∀ (s : State) (f : FatalFault), CycleDue s → busRead32 s s.pc = .error f →
    ∃ t, step s = .next t ∧ t.reg 0 = 0 ∧ (∀ q, q ≠ 0 → t.reg q = s.reg q) ∧ t.pc = s.pc ∧ t.latch = s.latch ∧
      t.sr = s.sr ∧ t.run = .stopped ∧ t.fault = (match s.fault with | none => some f | some g => some g) ∧
      t.events = (beginCycle s).events ++ [.fault f] ∧ t.mem = s.mem ∧ t.platform = s.platform ∧
      busRead32 t t.pc = .error f

/-- R149 second row (no rollback is decision D23): a fault in step 6. Steps 1 to 5 stay in effect, no other register and not
`sr` has changed, and the faulting instruction is gone.
Log entries 7 and 11. -/
def Obligations.ExecuteFaultConsumesTheInstruction : Prop :=
  ∀ (s t : State) (w : Word) (f : FatalFault), CycleDue s → busRead32 s s.pc = .ok w → step s = .next t →
    t.events = (atExecute s w).events ++ [.fault f] →
    t.reg 0 = 0 ∧ (∀ q, q ≠ 0 → t.reg q = s.reg q) ∧ t.pc = s.pc + 4 ∧ t.latch = ⟨w, s.pc⟩ ∧ t.sr = s.sr ∧
      t.run = .stopped ∧ t.fault = (match s.fault with | none => some f | some g => some g) ∧
      t.instr = emptyLatch

/-- R74, R85, R136, R144 (a) to (c): a pending word that selects no instruction raises UnhandledInstruction, with the address
the word was fetched from, its opcode, and the sub-opcode or selector for the two groups that have one.
Log entries 7, 11 and 13. -/
def Obligations.IllegalWordTakesUnhandledInstruction : Prop :=
  ∀ (s : State) (w : Word) (m : Miss), CycleDue s → busRead32 s s.pc = .ok w → decodeWord s.latch.word = .error m →
    ∃ t, step s = .next t ∧
      OnlyFault
        (match m with
         | .primary o => .unhandledInstruction s.latch.addr o none
         | .special g => .unhandledInstruction s.latch.addr 0x00 (some g)
         | .cop0 q => .unhandledInstruction s.latch.addr 0x10 (some (q.setWidth 6)))
        { atExecute s w with instr := emptyLatch } t

/-- R22, R148 (decision D22): the first fault record is kept until a reset. -/
def Obligations.FirstFaultIsKept : Prop :=
  ∀ (s t : State) (f : FatalFault), step s = .next t → s.fault = some f → ¬ ResetDue s → t.fault = some f

/-- R50, R151: events are only ever added, in order, and a step adds at most one fault or diagnostic.
The list of events is log entry 6. -/
def Obligations.AtMostOneSignalPerStep : Prop :=
  ∀ s t : State, step s = .next t → ∃ es, t.events = s.events ++ es ∧ (es.filter isSignal).length ≤ 1

/-! ## The cycle -/

/-- R84, R85: A STEP RUNS THE DECODED INSTRUCTION. When a cycle is due, the fetch at `pc` returns `w` and the pending word
decodes to `i`, the step is `exec i` at the state steps 1 to 5 have built, with the instruction gone afterwards. When the fetch
raises, nothing executes; when the pending word selects no instruction, step 6 raises.
When a cycle is due, and the transient `instr`, are the model's form: log entries 7 and 11. -/
def Obligations.StepRunsTheDecodedInstruction : Prop :=
  ∀ s : State, CycleDue s →
    (∀ w i, busRead32 s s.pc = .ok w → decodeWord s.latch.word = .ok i →
      step s = endCycle (exec i (atExecute s w))) ∧
    (∀ w m, busRead32 s s.pc = .ok w → decodeWord s.latch.word = .error m →
      step s = endCycle (.next (takeFault (missFault s.latch.addr m) (atExecute s w)))) ∧
    (∀ f, busRead32 s s.pc = .error f →
      step s = endCycle (.next (takeFault f (beginCycle s.takeInput))))

/-- R89 (b): the word fetched by one cycle is the instruction the next cycle executes, with its own fetch address, while that
cycle fetches whatever `pc` then holds. -/
def Obligations.FetchedWordExecutesNext : Prop :=
  ∀ (s t : State) (w v : Word) (i : Instr), CycleDue s → busRead32 s s.pc = .ok w → step s = .next t →
    CycleDue t → busRead32 t t.pc = .ok v → decodeWord w = .ok i →
    step t = endCycle (exec i (atExecute t v)) ∧ (atExecute t v).instr = ⟨w, s.pc⟩ ∧
      (atExecute t v).latch = ⟨v, t.pc⟩

/-- R15, R17, R90: a cycle whose fetch returns a word latches it with its address, and leaves `pc` 4 further, wrapping, unless
the executed instruction is a J, which writes its own address. -/
def Obligations.PcAdvancesByFour : Prop :=
  ∀ (s t : State) (w : Word), CycleDue s → busRead32 s s.pc = .ok w → step s = .next t →
    t.latch = ⟨w, s.pc⟩ ∧
    ((∀ g, decodeWord s.latch.word ≠ .ok (.j g)) → t.pc.toNat = (s.pc.toNat + 4) % 2 ^ 32) ∧
    (∀ g, decodeWord s.latch.word = .ok (.j g) →
      t.pc.toNat = (s.pc.toNat + 4) % 2 ^ 32 / 2 ^ 28 * 2 ^ 28 + g.toNat * 4)

/-- R13: no instruction can see what an earlier one left in cell 0. -/
def Obligations.RegisterZeroIsUnobservable : Prop :=
  ∀ (s : State) (v : Word), CycleDue s → step (withCell0 s v) = step s

/-- R12: the host reads after a cycle what its instruction wrote to register 0, and reads 0 after a cycle that did not write
register 0, because its fetch raised or its instruction has no such destination; a step that is no cycle leaves the cell alone
unless it is a reset.
Steps that are no cycles are log entry 7. -/
def Obligations.RegisterZeroIsTransient : Prop :=
  (∀ (s u : State) (w : Word) (i : Instr), CycleDue s → busRead32 s s.pc = .ok w → decodeWord s.latch.word = .ok i →
    exec i (atExecute s w) = .next u → ∃ t, step s = .next t ∧ (hostView t).x[0] = u.reg 0) ∧
  (∀ s t : State, CycleDue s → step s = .next t →
    ((∃ f, busRead32 s s.pc = .error f) ∨ ∀ i, decodeWord s.latch.word = .ok i → destination i ≠ some 0) →
    (hostView t).x[0] = 0) ∧
  (∀ s t : State, ¬ CycleDue s → ¬ ResetDue s → step s = .next t → (hostView t).x[0] = (hostView s).x[0])

/-- R126, the branch delay slot. A J is pending, the engine runs and no command comes. The next cycle executes the J while it
fetches the word after it; the cycle after that executes that word while it fetches the word at the target `T`, which is then
the pending instruction. -/
def Obligations.JumpHasOneDelaySlot : Prop :=
  ∀ (s : State) (g : BitVec 26) (d v T : Word) (i : Instr),
    s.run = .running → s.inputs = [] → decodeWord s.latch.word = .ok (.j g) → busRead32 s s.pc = .ok d →
    T.toNat = (s.pc.toNat + 4) % 2 ^ 32 / 2 ^ 28 * 2 ^ 28 + g.toNat * 4 → busRead32 s T = .ok v →
    decodeWord d = .ok i →
    ∃ t, step s = .next t ∧ t.pc = T ∧ t.latch = ⟨d, s.pc⟩ ∧
      step t = endCycle (exec i (atExecute t v)) ∧ (atExecute t v).instr = ⟨d, s.pc⟩ ∧
      ∀ u, step t = .next u → u.latch = ⟨v, T⟩

/-- R128, a J in the delay slot of a J: exactly one word of the first target `T` executes, then control is at the second target,
whose segment is that of `T + 4`. -/
def Obligations.JumpInADelaySlot : Prop :=
  ∀ (s : State) (g1 g2 : BitVec 26) (d v1 v2 T1 T2 : Word),
    s.run = .running → s.inputs = [] → decodeWord s.latch.word = .ok (.j g1) → busRead32 s s.pc = .ok d →
    decodeWord d = .ok (.j g2) →
    T1.toNat = (s.pc.toNat + 4) % 2 ^ 32 / 2 ^ 28 * 2 ^ 28 + g1.toNat * 4 →
    T2.toNat = (T1.toNat + 4) % 2 ^ 32 / 2 ^ 28 * 2 ^ 28 + g2.toNat * 4 →
    busRead32 s T1 = .ok v1 → busRead32 s T2 = .ok v2 →
    ∃ t1 t2 t3, step s = .next t1 ∧ step t1 = .next t2 ∧ step t2 = .next t3 ∧
      t1.pc = T1 ∧ t1.latch = ⟨d, s.pc⟩ ∧ t2.pc = T2 ∧ t2.latch = ⟨v1, T1⟩ ∧ t3.latch = ⟨v2, T2⟩

/-- R171, R89 (d): the first cycle after reset, on any platform with a BIOS: the reset latch executes with no effect while the
first word of the image is fetched. The empty latch is the spec's decision D18. -/
def Obligations.FirstCycleAfterReset : Prop :=
  ∀ s : State, CycleDue s → s.platform.wellFormed = true → 0 < s.platform.bios.len →
    s.latch = ⟨0x00000000, 0x00000000⟩ → s.pc = s.platform.bios.base →
    ∃ t, step s = .next t ∧ t.reg 0 = 0 ∧ (∀ q, q ≠ 0 → t.reg q = s.reg q) ∧ t.pc = s.platform.bios.base + 4 ∧
      t.latch = ⟨biosRead32 s 0, s.platform.bios.base⟩ ∧ t.sr = s.sr ∧ t.run = s.run ∧ t.fault = s.fault

/-- R52, R170 (constancy is decision D27): between two resets no step changes what a fetch returns. -/
def Obligations.ImageNeverChanges : Prop :=
  ∀ s t : State, step s = .next t → ¬ ResetDue s →
    t.mem = s.mem ∧ t.platform = s.platform ∧ ∀ a, busRead32 t a = busRead32 s a

/-- R93: a word is labelled NOP exactly when it is an SLL of register 0 by 0, and the label replaces no rule: such a word still
writes its destination, with 0. -/
def Obligations.NopLabelChangesNothing : Prop :=
  (∀ w : Word, isNop w = true ↔ ∃ rd, decodeWord w = .ok (.sll rd 0 0)) ∧
  ∀ (s t : State) (w v : Word), CycleDue s → busRead32 s s.pc = .ok v → s.latch.word = w → isNop w = true →
    step s = .next t → t.reg (fields w).rd = 0

/-- R92: with the trace event on, a cycle first reports the instruction about to execute. The mnemonic is the name of the
handler that executes it, and missing when the lookup of R85 misses; a coprocessor-0 word with another selector than 4 carries
the name of the handler its lookup hits, MTC0, which is the model's DEDUCED reading (log entry 9). With it off, a cycle reports
none.
That the event may be switched off, and its place in the list, are log entries 6 and 9. -/
def Obligations.TraceEventOfACycle : Prop :=
  ∀ s t : State, CycleDue s → step s = .next t →
    (s.platform.trace = true → ∃ mn es,
      t.events = s.events ++ .trace s.latch.addr (fields s.latch.word).opcode mn (isNop s.latch.word) :: es ∧
      es.all isSignal = true ∧
      (∀ i, decodeWord s.latch.word = .ok i → mn = some (handlerOf i)) ∧
      (∀ o, decodeWord s.latch.word = .error (.primary o) → mn = none) ∧
      (∀ g, decodeWord s.latch.word = .error (.special g) → mn = none) ∧
      (∀ q, decodeWord s.latch.word = .error (.cop0 q) → mn = some .mtc0)) ∧
    (s.platform.trace = false → ∃ es, t.events = s.events ++ es ∧ es.all isSignal = true)

/-! ## What is never read -/

/-- R19, R22, R92: two states that differ only in `sr`, the fault record, the events sent and whether the trace event is emitted
have steps that differ only there: the registers, `pc`, the latch, the engine state and every stop are the same. -/
def Obligations.UnreadStateIsUnobservable : Prop :=
  ∀ s t : State, eraseUnread s = eraseUnread t → eraseOutcome (step s) = eraseOutcome (step t)

/-! ## The host's commands -/

/-- R81, R80: `start`.
One command takes one step: the model's choice, log entry 7. -/
def Obligations.StartNeedsABios : Prop :=
  ∀ s : State, s.pending.select = .start →
    (s.run = .stopped → 0 < s.platform.bios.len → step s = .next { s.takeInput with run := .running }) ∧
    (s.run = .stopped → s.platform.bios.len = 0 →
      step s = .next { s.takeInput with events := s.events ++ [.cannotStart] }) ∧
    (s.run = .running → step s = .next s.takeInput)

/-- R82, R80: `pause` stops the engine at the boundary and touches nothing else.
One command takes one step: the model's choice, log entry 7. -/
def Obligations.PauseStopsAtTheBoundary : Prop :=
  ∀ s : State, s.pending.select = .pause → step s = .next { s.takeInput with run := .stopped }

/-- R83 (ignoring it while Running is decision D24): `step`. While Stopped it is exactly one cycle and the engine stays Stopped;
without a BIOS that cycle takes UnmappedRead at its fetch.
Log entry 7. -/
def Obligations.SingleStepIsOneCycle : Prop :=
  ∀ s : State, s.pending.select = .step →
    (s.run = .stopped → step s = cycle s.takeInput ∧ ∃ t, step s = .next t ∧ t.run = .stopped ∧
      (s.platform.bios.len = 0 → s.fault = none → s.pc.toNat % 4 = 0 → t.fault = some (.unmappedRead s.pc .bios))) ∧
    (s.run = .running → step s = .next s.takeInput)

/-- R87 (decision D24): reset, then pause, then start, then step; the others are dropped.
Commands that coincide are one entry of the list: log entry 7. -/
def Obligations.CommandPriority : Prop :=
  (∀ b p t e, HostInput.select ⟨some b, p, t, e⟩ = .reset b) ∧
  (∀ t e, HostInput.select ⟨none, true, t, e⟩ = .pause) ∧
  (∀ e, HostInput.select ⟨none, false, true, e⟩ = .start) ∧
  HostInput.select ⟨none, false, false, true⟩ = .step ∧
  HostInput.select ⟨none, false, false, false⟩ = .none ∧
  ∀ (s : State) (c d : HostInput) (rest : List HostInput), c.select = d.select →
    step { s with inputs := c :: rest } = step { s with inputs := d :: rest }

/-- R159, R80: a Stopped engine retains all state until a command comes.
A step without a command is log entry 7. -/
def Obligations.StoppedRetainsAllState : Prop :=
  ∀ s : State, s.run = .stopped → s.pending.select = .none → step s = .next { s with inputs := s.inputs.tail }

/-- R80, R148: how the engine state can change.
Log entry 7. -/
def Obligations.RunStateTransitions : Prop :=
  ∀ s t : State, step s = .next t →
    (s.run = .stopped → t.run = .running → s.pending.select = .start ∧ 0 < s.platform.bios.len) ∧
    (s.run = .running → t.run = .stopped →
      s.pending.select = .pause ∨ ResetDue s ∨ ∃ f, t.events.getLast? = some (.fault f))

/-- R80: there is no terminal state; every step answers a next state unless it serves a reset whose configuration R5 forbids
(that stop is the model's choice, log entry 8). -/
def Obligations.EveryStepAnswers : Prop :=
  ∀ s : State, (∀ b, s.pending.select = .reset b → b.wellFormed = true) → ∃ t, step s = .next t

/-! ## Reset -/

/-- R170, R24 (the latch, `sr`, and the fault record are the spec's decisions D18, D20, D21): the `reset` command. Registers 1 to
31 are unspecified: nothing is said of them.
What has been sent and what is still to come survive: the model's choice, log entries 6 and 7. -/
def Obligations.ResetCommandReinitialises : Prop :=
  ∀ (s : State) (b : Boot), s.pending.select = .reset b → b.wellFormed = true →
    ∃ t, step s = .next t ∧ t.reg 0 = 0 ∧ t.pc = b.platform.bios.base ∧ t.latch = ⟨0x00000000, 0x00000000⟩ ∧
      t.sr = 0 ∧ t.run = .stopped ∧ t.fault = none ∧ t.platform = b.platform ∧ t.mem = b.image ∧
      t.events = s.events ∧ t.inputs = s.inputs.tail

/-- The model's choice (log entry 8): a `reset` with a configuration that breaks R5 stops the model by name. -/
def Obligations.ResetRefusesAnIllegalConfiguration : Prop :=
  ∀ (s : State) (b : Boot), s.pending.select = .reset b → b.platform.wellFormed = false →
    step s = .fault .illegalConfiguration

/-- R24 (decisions D2, D18, D20, D21; the platform is the default of R5): the state after reset. -/
def Obligations.ResetStateValues : Prop :=
  State.reset.reg 0 = 0 ∧ State.reset.pc = State.reset.platform.bios.base ∧ State.reset.pc = 0xBFC00000 ∧
  State.reset.latch = ⟨0x00000000, 0x00000000⟩ ∧ State.reset.sr = 0 ∧ State.reset.run = .stopped ∧
  State.reset.fault = none

/-- The invariant holds at reset. -/
def Obligations.ResetMeetsTheInvariant : Prop := Inv State.reset

/-- R5, R17, R18, R25, R141 to R144: every step keeps the invariant. The configuration stays legal, the image canonical, `pc` a
multiple of 4; the latch holds its reset content or the image word at its own address; no instruction survives its cycle; and a
recorded fault is one that the configuration and the image bear out. -/
def Obligations.StepKeepsTheInvariant : Prop :=
  ∀ s t : State, Inv s → step s = .next t → Inv t
end

