-- ==== Sys2Proof/Laws/Encoding.lean ====
section
/-! SUPPORT. The decoder on each format of the encoder, field by field, and the tables as one chain. -/

namespace Sys2Proof

/-! The bits of a word of each format (30_encoding.md section 2). -/

theorem getLsbD_formatI (o : Code6) (rs rt : RegIdx) (imm : Imm16) (i : Nat) :
    (formatI o rs rt imm).getLsbD i =
      if i < 16 then imm.getLsbD i
      else if i - 16 < 5 then rt.getLsbD (i - 16)
      else if i - 16 - 5 < 5 then rs.getLsbD (i - 16 - 5)
      else o.getLsbD (i - 16 - 5 - 5) := by
  change (o ++ rs ++ rt ++ imm : BitVec (6 + 5 + 5 + 16)).getLsbD i = _
  simp only [BitVec.getLsbD_append]

theorem getLsbD_formatJ (o : Code6) (t : BitVec 26) (i : Nat) :
    (formatJ o t).getLsbD i = if i < 26 then t.getLsbD i else o.getLsbD (i - 26) := by
  change (o ++ t : BitVec (6 + 26)).getLsbD i = _
  simp only [BitVec.getLsbD_append]

theorem getLsbD_formatR (o : Code6) (rs rt rd : RegIdx) (sa : BitVec 5) (fn : Code6) (i : Nat) :
    (formatR o rs rt rd sa fn).getLsbD i =
      if i < 6 then fn.getLsbD i
      else if i - 6 < 5 then sa.getLsbD (i - 6)
      else if i - 6 - 5 < 5 then rd.getLsbD (i - 6 - 5)
      else if i - 6 - 5 - 5 < 5 then rt.getLsbD (i - 6 - 5 - 5)
      else if i - 6 - 5 - 5 - 5 < 5 then rs.getLsbD (i - 6 - 5 - 5 - 5)
      else o.getLsbD (i - 6 - 5 - 5 - 5 - 5) := by
  change (o ++ rs ++ rt ++ rd ++ sa ++ fn : BitVec (6 + 5 + 5 + 5 + 5 + 6)).getLsbD i = _
  simp only [BitVec.getLsbD_append]

theorem getLsbD_formatC0 (o : Code6) (rs rt rd : RegIdx) (low : BitVec 11) (i : Nat) :
    (formatC0 o rs rt rd low).getLsbD i =
      if i < 11 then low.getLsbD i
      else if i - 11 < 5 then rd.getLsbD (i - 11)
      else if i - 11 - 5 < 5 then rt.getLsbD (i - 11 - 5)
      else if i - 11 - 5 - 5 < 5 then rs.getLsbD (i - 11 - 5 - 5)
      else o.getLsbD (i - 11 - 5 - 5 - 5) := by
  change (o ++ rs ++ rt ++ rd ++ low : BitVec (6 + 5 + 5 + 5 + 11)).getLsbD i = _
  simp only [BitVec.getLsbD_append]

/-! The fields of a word of each format. -/

@[simp] theorem formatI_opcode (o : Code6) (rs rt : RegIdx) (imm : Imm16) :
    (fields (formatI o rs rt imm)).opcode = o := by
  apply BitVec.eq_of_getLsbD_eq
  intro i hi
  simp only [fields, BitVec.getLsbD_extractLsb', getLsbD_formatI, hi, decide_true, Bool.true_and]
  repeat' split
  all_goals first
    | (exfalso; omega)
    | (congr 1; omega)

@[simp] theorem formatI_rs (o : Code6) (rs rt : RegIdx) (imm : Imm16) :
    (fields (formatI o rs rt imm)).rs = rs := by
  apply BitVec.eq_of_getLsbD_eq
  intro i hi
  simp only [fields, BitVec.getLsbD_extractLsb', getLsbD_formatI, hi, decide_true, Bool.true_and]
  repeat' split
  all_goals first
    | (exfalso; omega)
    | (congr 1; omega)

@[simp] theorem formatI_rt (o : Code6) (rs rt : RegIdx) (imm : Imm16) :
    (fields (formatI o rs rt imm)).rt = rt := by
  apply BitVec.eq_of_getLsbD_eq
  intro i hi
  simp only [fields, BitVec.getLsbD_extractLsb', getLsbD_formatI, hi, decide_true, Bool.true_and]
  repeat' split
  all_goals first
    | (exfalso; omega)
    | (congr 1; omega)

@[simp] theorem formatI_imm (o : Code6) (rs rt : RegIdx) (imm : Imm16) :
    (fields (formatI o rs rt imm)).imm = imm := by
  apply BitVec.eq_of_getLsbD_eq
  intro i hi
  simp only [fields, BitVec.getLsbD_extractLsb', getLsbD_formatI, hi, decide_true, Bool.true_and]
  repeat' split
  all_goals first
    | (exfalso; omega)
    | (congr 1; omega)

@[simp] theorem formatJ_opcode (o : Code6) (t : BitVec 26) :
    (fields (formatJ o t)).opcode = o := by
  apply BitVec.eq_of_getLsbD_eq
  intro i hi
  simp only [fields, BitVec.getLsbD_extractLsb', getLsbD_formatJ, hi, decide_true, Bool.true_and]
  repeat' split
  all_goals first
    | (exfalso; omega)
    | (congr 1; omega)

@[simp] theorem formatJ_target (o : Code6) (t : BitVec 26) :
    (fields (formatJ o t)).target = t := by
  apply BitVec.eq_of_getLsbD_eq
  intro i hi
  simp only [fields, BitVec.getLsbD_extractLsb', getLsbD_formatJ, hi, decide_true, Bool.true_and]
  repeat' split
  all_goals first
    | (exfalso; omega)
    | (congr 1; omega)

@[simp] theorem formatR_opcode (o : Code6) (rs rt rd : RegIdx) (sa : BitVec 5) (fn : Code6) :
    (fields (formatR o rs rt rd sa fn)).opcode = o := by
  apply BitVec.eq_of_getLsbD_eq
  intro i hi
  simp only [fields, BitVec.getLsbD_extractLsb', getLsbD_formatR, hi, decide_true, Bool.true_and]
  repeat' split
  all_goals first
    | (exfalso; omega)
    | (congr 1; omega)

@[simp] theorem formatR_rs (o : Code6) (rs rt rd : RegIdx) (sa : BitVec 5) (fn : Code6) :
    (fields (formatR o rs rt rd sa fn)).rs = rs := by
  apply BitVec.eq_of_getLsbD_eq
  intro i hi
  simp only [fields, BitVec.getLsbD_extractLsb', getLsbD_formatR, hi, decide_true, Bool.true_and]
  repeat' split
  all_goals first
    | (exfalso; omega)
    | (congr 1; omega)

@[simp] theorem formatR_rt (o : Code6) (rs rt rd : RegIdx) (sa : BitVec 5) (fn : Code6) :
    (fields (formatR o rs rt rd sa fn)).rt = rt := by
  apply BitVec.eq_of_getLsbD_eq
  intro i hi
  simp only [fields, BitVec.getLsbD_extractLsb', getLsbD_formatR, hi, decide_true, Bool.true_and]
  repeat' split
  all_goals first
    | (exfalso; omega)
    | (congr 1; omega)

@[simp] theorem formatR_rd (o : Code6) (rs rt rd : RegIdx) (sa : BitVec 5) (fn : Code6) :
    (fields (formatR o rs rt rd sa fn)).rd = rd := by
  apply BitVec.eq_of_getLsbD_eq
  intro i hi
  simp only [fields, BitVec.getLsbD_extractLsb', getLsbD_formatR, hi, decide_true, Bool.true_and]
  repeat' split
  all_goals first
    | (exfalso; omega)
    | (congr 1; omega)

@[simp] theorem formatR_shamt (o : Code6) (rs rt rd : RegIdx) (sa : BitVec 5) (fn : Code6) :
    (fields (formatR o rs rt rd sa fn)).shamt = sa := by
  apply BitVec.eq_of_getLsbD_eq
  intro i hi
  simp only [fields, BitVec.getLsbD_extractLsb', getLsbD_formatR, hi, decide_true, Bool.true_and]
  repeat' split
  all_goals first
    | (exfalso; omega)
    | (congr 1; omega)

@[simp] theorem formatR_funct (o : Code6) (rs rt rd : RegIdx) (sa : BitVec 5) (fn : Code6) :
    (fields (formatR o rs rt rd sa fn)).funct = fn := by
  apply BitVec.eq_of_getLsbD_eq
  intro i hi
  simp only [fields, BitVec.getLsbD_extractLsb', getLsbD_formatR, hi, decide_true, Bool.true_and]
  repeat' split
  all_goals first
    | (exfalso; omega)
    | (congr 1; omega)

@[simp] theorem formatC0_opcode (o : Code6) (rs rt rd : RegIdx) (low : BitVec 11) :
    (fields (formatC0 o rs rt rd low)).opcode = o := by
  apply BitVec.eq_of_getLsbD_eq
  intro i hi
  simp only [fields, BitVec.getLsbD_extractLsb', getLsbD_formatC0, hi, decide_true, Bool.true_and]
  repeat' split
  all_goals first
    | (exfalso; omega)
    | (congr 1; omega)

@[simp] theorem formatC0_rs (o : Code6) (rs rt rd : RegIdx) (low : BitVec 11) :
    (fields (formatC0 o rs rt rd low)).rs = rs := by
  apply BitVec.eq_of_getLsbD_eq
  intro i hi
  simp only [fields, BitVec.getLsbD_extractLsb', getLsbD_formatC0, hi, decide_true, Bool.true_and]
  repeat' split
  all_goals first
    | (exfalso; omega)
    | (congr 1; omega)

@[simp] theorem formatC0_rt (o : Code6) (rs rt rd : RegIdx) (low : BitVec 11) :
    (fields (formatC0 o rs rt rd low)).rt = rt := by
  apply BitVec.eq_of_getLsbD_eq
  intro i hi
  simp only [fields, BitVec.getLsbD_extractLsb', getLsbD_formatC0, hi, decide_true, Bool.true_and]
  repeat' split
  all_goals first
    | (exfalso; omega)
    | (congr 1; omega)

@[simp] theorem formatC0_rd (o : Code6) (rs rt rd : RegIdx) (low : BitVec 11) :
    (fields (formatC0 o rs rt rd low)).rd = rd := by
  apply BitVec.eq_of_getLsbD_eq
  intro i hi
  simp only [fields, BitVec.getLsbD_extractLsb', getLsbD_formatC0, hi, decide_true, Bool.true_and]
  repeat' split
  all_goals first
    | (exfalso; omega)
    | (congr 1; omega)

/-! The two-level lookup, as the chain of the occupied entries (30_encoding.md R71, R72; 40_cycle_and_dispatch.md R85). -/

/-- A miss of a key at the head of an association list. -/
theorem lookup_cons_ne {k a : Code6} {β : Type} (b : β) (es : List (Code6 × β)) (h : k ≠ a) :
    ((a, b) :: es).lookup k = es.lookup k := by
  rw [List.lookup_cons, beq_false_of_ne h]

theorem primaryTable_lookup (k : Code6) :
    primaryTable.lookup k =
      if k = 0x00 then some .special
      else if k = 0x02 then some (.handler .j)
      else if k = 0x05 then some (.handler .bne)
      else if k = 0x09 then some (.handler .addiu)
      else if k = 0x0D then some (.handler .ori)
      else if k = 0x0F then some (.handler .lui)
      else if k = 0x10 then some (.handler .mtc0)
      else if k = 0x2B then some (.handler .sw)
      else none := by
  unfold primaryTable
  repeat' split
  all_goals first
    | (subst_vars; rfl)
    | simp only [*, lookup_cons_ne, ne_eq, not_false_eq_true, List.lookup_nil]

theorem specialTable_lookup (k : Code6) :
    specialTable.lookup k = if k = 0x00 then some .sll else if k = 0x25 then some .or else none := by
  unfold specialTable
  repeat' split
  all_goals first
    | (subst_vars; rfl)
    | simp only [*, lookup_cons_ne, ne_eq, not_false_eq_true, List.lookup_nil]

/-- What the decoder answers, as one chain over the opcode, the sub-opcode and the selector (R71 to R74). -/
theorem decodeWord_eq (w : Word) :
    decodeWord w =
      if (fields w).opcode = 0x00 then
        if (fields w).funct = 0x00 then .ok (.sll (fields w).rd (fields w).rt (fields w).shamt)
        else if (fields w).funct = 0x25 then .ok (.or (fields w).rd (fields w).rs (fields w).rt)
        else .error (.special (fields w).funct)
      else if (fields w).opcode = 0x02 then .ok (.j (fields w).target)
      else if (fields w).opcode = 0x05 then .ok (.bne (fields w).rs (fields w).rt (fields w).imm)
      else if (fields w).opcode = 0x09 then .ok (.addiu (fields w).rt (fields w).rs (fields w).imm)
      else if (fields w).opcode = 0x0D then .ok (.ori (fields w).rt (fields w).rs (fields w).imm)
      else if (fields w).opcode = 0x0F then .ok (.lui (fields w).rt (fields w).imm)
      else if (fields w).opcode = 0x10 then
        if (fields w).rs = 4 then .ok (.mtc0 (fields w).rt (fields w).rd) else .error (.cop0 (fields w).rs)
      else if (fields w).opcode = 0x2B then .ok (.sw (fields w).rt (fields w).imm (fields w).rs)
      else .error (.primary (fields w).opcode) := by
  simp only [decodeWord, lookupHandler, primaryTable_lookup, specialTable_lookup]
  by_cases h0 : (fields w).opcode = 0x00
  · by_cases g0 : (fields w).funct = 0x00
    · simp only [if_pos h0, if_pos g0, instrOf]
    by_cases g1 : (fields w).funct = 0x25
    · simp only [if_pos h0, if_neg g0, if_pos g1, instrOf]
    simp only [if_pos h0, if_neg g0, if_neg g1]
  by_cases h1 : (fields w).opcode = 0x02
  · simp only [if_neg h0, if_pos h1, instrOf]
  by_cases h2 : (fields w).opcode = 0x05
  · simp only [if_neg h0, if_neg h1, if_pos h2, instrOf]
  by_cases h3 : (fields w).opcode = 0x09
  · simp only [if_neg h0, if_neg h1, if_neg h2, if_pos h3, instrOf]
  by_cases h4 : (fields w).opcode = 0x0D
  · simp only [if_neg h0, if_neg h1, if_neg h2, if_neg h3, if_pos h4, instrOf]
  by_cases h5 : (fields w).opcode = 0x0F
  · simp only [if_neg h0, if_neg h1, if_neg h2, if_neg h3, if_neg h4, if_pos h5, instrOf]
  by_cases h6 : (fields w).opcode = 0x10
  · simp only [if_neg h0, if_neg h1, if_neg h2, if_neg h3, if_neg h4, if_neg h5, if_pos h6, instrOf]
  by_cases h7 : (fields w).opcode = 0x2B
  · simp only [if_neg h0, if_neg h1, if_neg h2, if_neg h3, if_neg h4, if_neg h5, if_neg h6, if_pos h7, instrOf]
  simp only [if_neg h0, if_neg h1, if_neg h2, if_neg h3, if_neg h4, if_neg h5, if_neg h6, if_neg h7]

/-! What a rejection says about the two-level lookup (40_cycle_and_dispatch.md R85). -/

/-- Only the COP0 entry rejects a word that the lookup has accepted (R73). -/
theorem instrOf_error {k : Handler} {F : Fields} {m : Miss} (h : instrOf k F = .error m) : k = .mtc0 ∧ ∃ q, m = .cop0 q := by
  cases k <;> simp only [instrOf] at h <;> (try split at h) <;> cases h
  exact ⟨rfl, _, rfl⟩

/-- A miss of the lookup is a miss of one of the tables. -/
theorem lookupHandler_error {F : Fields} {m : Miss} (h : lookupHandler F = .error m) (q : RegIdx) : m ≠ .cop0 q := by
  revert h
  unfold lookupHandler
  cases primaryTable.lookup F.opcode with
  | none => rintro ⟨⟩; simp
  | some e =>
    cases e with
    | handler k => simp
    | special =>
      cases specialTable.lookup F.funct with
      | none => rintro ⟨⟩; simp
      | some k => simp

/-- A rejected word is a miss of the lookup, or one whose lookup hits the COP0 entry. -/
theorem decodeWord_error {w : Word} {m : Miss} (h : decodeWord w = .error m) :
    (lookupHandler (fields w) = .error m ∧ ∀ q, m ≠ .cop0 q) ∨ (lookupHandler (fields w) = .ok .mtc0 ∧ ∃ q, m = .cop0 q) := by
  unfold decodeWord at h
  cases hr : lookupHandler (fields w) with
  | error m' => rw [hr] at h; cases h; exact .inl ⟨rfl, lookupHandler_error hr⟩
  | ok k => rw [hr] at h; obtain ⟨rfl, hq⟩ := instrOf_error h; exact .inr ⟨rfl, hq⟩

end Sys2Proof
end

