-- ==== Sys2Proof/Laws/Memory.lean ====
section
/-! SUPPORT. The image: read after write, and that every operation keeps the canonical form. -/

namespace Sys2Proof.Machine

/-- A byte no entry lists reads as the unlisted byte. -/
theorem readByte_of_not_listed {m : Memory} {n : Nat} (h : ∀ c ∈ m, c.1 ≠ n) : m.readByte n = unlistedByte := by
  induction m with
  | nil => rfl
  | cons c m ih =>
    have hc : c.1 ≠ n := h c (by simp)
    simp only [Memory.readByte, hc, if_false]
    exact ih fun d hd => h d (by simp [hd])

/-- The canonical form of a non-empty image, as propositions. -/
theorem wf_cons {c : Host.Cell} {m : Memory} :
    Memory.wf (c :: m) = true ↔ c.2 ≠ unlistedByte ∧ (∀ d ∈ m, c.1 < d.1) ∧ Memory.wf m = true := by
  simp [Memory.wf, and_assoc]

/-- A write to a canonical image leaves only entries that were there and, perhaps, the one written. -/
theorem mem_writeByte {m : Memory} {n : Nat} {v : Byte} {d : Host.Cell} (h : d ∈ m.writeByte n v) : d ∈ m ∨ d = (n, v) := by
  induction m with
  | nil =>
    by_cases hv : v = unlistedByte <;> simp [Memory.writeByte, hv] at h
    exact .inr h
  | cons c m ih =>
    by_cases h1 : n < c.1
    · by_cases hv : v = unlistedByte <;> simp [Memory.writeByte, h1, hv] at h ⊢ <;> tauto
    · by_cases h2 : n = c.1
      · by_cases hv : v = unlistedByte <;> simp [Memory.writeByte, h2, hv] at h ⊢ <;> tauto
      · simp [Memory.writeByte, h1, h2] at h ⊢
        rcases h with h | h
        · exact .inl (.inl h)
        · rcases ih h with h | h
          · exact .inl (.inr h)
          · exact .inr h

/-- Writing a byte keeps the canonical form. -/
theorem wf_writeByte {m : Memory} (h : Memory.wf m = true) (n : Nat) (v : Byte) : Memory.wf (m.writeByte n v) = true := by
  induction m with
  | nil => by_cases hv : v = unlistedByte <;> simp [Memory.writeByte, hv, Memory.wf]
  | cons c m ih =>
    obtain ⟨h1, h2, h3⟩ := wf_cons.mp h
    by_cases hlt : n < c.1
    · by_cases hv : v = unlistedByte
      · simpa [Memory.writeByte, hlt, hv] using h
      · simp only [Memory.writeByte, hlt, hv, if_true, if_false]
        refine wf_cons.mpr ⟨hv, fun d hd => ?_, h⟩
        rcases List.mem_cons.mp hd with rfl | hd
        · exact hlt
        · exact Nat.lt_trans hlt (h2 d hd)
    · by_cases heq : n = c.1
      · by_cases hv : v = unlistedByte
        · simpa [Memory.writeByte, heq, hv] using h3
        · simp only [Memory.writeByte, heq, Nat.lt_irrefl, hv, if_true, if_false]
          exact wf_cons.mpr ⟨hv, h2, h3⟩
      · simp only [Memory.writeByte, hlt, heq, if_false]
        refine wf_cons.mpr ⟨h1, fun d hd => ?_, ih h3⟩
        rcases mem_writeByte hd with hd | rfl
        · exact h2 d hd
        · show c.1 < n
          omega

/-- A byte written reads back. -/
theorem readByte_writeByte_same {m : Memory} (h : Memory.wf m = true) (n : Nat) (v : Byte) :
    (m.writeByte n v).readByte n = v := by
  induction m with
  | nil => by_cases hv : v = unlistedByte <;> simp [Memory.writeByte, hv, Memory.readByte]
  | cons c m ih =>
    obtain ⟨h1, h2, h3⟩ := wf_cons.mp h
    by_cases hlt : n < c.1
    · by_cases hv : v = unlistedByte
      · simp only [Memory.writeByte, hlt, hv, if_true]
        exact readByte_of_not_listed fun d hd => by
          rcases List.mem_cons.mp hd with rfl | hd
          · omega
          · have := h2 d hd; omega
      · simp [Memory.writeByte, hlt, hv, Memory.readByte]
    · by_cases heq : n = c.1
      · by_cases hv : v = unlistedByte
        · simp only [Memory.writeByte, heq, hv, Nat.lt_irrefl, if_true, if_false]
          exact readByte_of_not_listed fun d hd => by have := h2 d hd; omega
        · simp [Memory.writeByte, heq, hv, Memory.readByte]
      · have hne : c.1 ≠ n := fun e => heq e.symm
        simp only [Memory.writeByte, hlt, heq, if_false, Memory.readByte, hne]
        exact ih h3

/-- A write leaves every other byte alone. -/
theorem readByte_writeByte_ne {m : Memory} (h : Memory.wf m = true) {n a : Nat} (v : Byte) (ha : a ≠ n) :
    (m.writeByte n v).readByte a = m.readByte a := by
  induction m with
  | nil => by_cases hv : v = unlistedByte <;> simp [Memory.writeByte, hv, Memory.readByte, ha.symm]
  | cons c m ih =>
    obtain ⟨h1, h2, h3⟩ := wf_cons.mp h
    by_cases hlt : n < c.1
    · by_cases hv : v = unlistedByte <;> simp [Memory.writeByte, hlt, hv, Memory.readByte, ha.symm]
    · by_cases heq : n = c.1
      · have hc : c.1 ≠ a := fun e => ha (by omega)
        by_cases hv : v = unlistedByte <;> simp [Memory.writeByte, heq, hv, Memory.readByte, hc]
      · by_cases hc : c.1 = a
        · subst hc
          simp only [Memory.writeByte, hlt, heq, if_false, Memory.readByte, if_true]
        · simp only [Memory.writeByte, hlt, heq, if_false, Memory.readByte, hc]
          exact ih h3

/-- Writing a word keeps the canonical form. -/
theorem wf_writeWord {m : Memory} (h : Memory.wf m = true) (a : Nat) (w : Word) : Memory.wf (m.writeWord a w) = true :=
  wf_writeByte (wf_writeByte (wf_writeByte (wf_writeByte h _ _) _ _) _ _) _ _

/-- Loading words keeps the canonical form. -/
theorem wf_loadWords {m : Memory} (h : Memory.wf m = true) (a : Nat) (ws : List Word) :
    Memory.wf (m.loadWords a ws) = true := by
  induction ws generalizing m a with
  | nil => exact h
  | cons w ws ih => exact ih (wf_writeWord h a w) (a + 4)

/-- The number four bytes make, the first least significant (20_memory.md R45). -/
theorem toNat_wordOfBytes (b0 b1 b2 b3 : Byte) :
    (wordOfBytes b0 b1 b2 b3).toNat = b0.toNat + 2 ^ 8 * b1.toNat + 2 ^ 16 * b2.toNat + 2 ^ 24 * b3.toNat := by
  simp only [wordOfBytes, BitVec.toNat_append, Nat.shiftLeft_eq, Nat.mul_comm _ (2 ^ 8)]
  rw [← Nat.two_pow_add_eq_or_of_lt b2.isLt, ← Nat.two_pow_add_eq_or_of_lt b1.isLt, ← Nat.two_pow_add_eq_or_of_lt b0.isLt]
  omega

/-- A word is the assembly of its own bytes (20_memory.md R45). -/
theorem wordOfBytes_byteOfWord (w : Word) :
    wordOfBytes (byteOfWord w 0) (byteOfWord w 1) (byteOfWord w 2) (byteOfWord w 3) = w := by
  apply BitVec.eq_of_getLsbD_eq
  intro i hi
  simp only [wordOfBytes, byteOfWord, BitVec.getLsbD_append, BitVec.getLsbD_extractLsb']
  interval_cases i <;> simp

/-- A word written reads back. -/
theorem readWord_writeWord {m : Memory} (h : Memory.wf m = true) (a : Nat) (w : Word) : (m.writeWord a w).readWord a = w := by
  have h1 := wf_writeByte h a (byteOfWord w 0)
  have h2 := wf_writeByte h1 (a + 1) (byteOfWord w 1)
  have h3 := wf_writeByte h2 (a + 2) (byteOfWord w 2)
  simp only [Memory.readWord, Memory.writeWord]
  rw [readByte_writeByte_ne h3 _ (by omega), readByte_writeByte_ne h2 _ (by omega), readByte_writeByte_ne h1 _ (by omega),
    readByte_writeByte_same h, readByte_writeByte_ne h3 _ (by omega), readByte_writeByte_ne h2 _ (by omega),
    readByte_writeByte_same h1, readByte_writeByte_ne h3 _ (by omega), readByte_writeByte_same h2,
    readByte_writeByte_same h3]
  exact wordOfBytes_byteOfWord w

/-- The image with nothing listed, the reset state's, is in canonical form. -/
theorem wf_nil : Memory.wf [] = true := rfl

end Sys2Proof.Machine
end

