-- ==== Sys2Proof/Laws/State.lean ====
section
/-! SUPPORT. The updates of the state field by field: one lemma per field per update, so that no proof unfolds an update. -/

namespace Sys2Proof.Machine

/-! Writing a register. -/

@[simp] theorem setReg_x (s : State) (r : RegIdx) (v : Word) : (s.setReg r v).x = s.x.set r.toNat v r.isLt := rfl
@[simp] theorem setReg_pc (s : State) (r : RegIdx) (v : Word) : (s.setReg r v).pc = s.pc := rfl
@[simp] theorem setReg_latch (s : State) (r : RegIdx) (v : Word) : (s.setReg r v).latch = s.latch := rfl
@[simp] theorem setReg_sr (s : State) (r : RegIdx) (v : Word) : (s.setReg r v).sr = s.sr := rfl
@[simp] theorem setReg_run (s : State) (r : RegIdx) (v : Word) : (s.setReg r v).run = s.run := rfl
@[simp] theorem setReg_fault (s : State) (r : RegIdx) (v : Word) : (s.setReg r v).fault = s.fault := rfl
@[simp] theorem setReg_platform (s : State) (r : RegIdx) (v : Word) : (s.setReg r v).platform = s.platform := rfl
@[simp] theorem setReg_mem (s : State) (r : RegIdx) (v : Word) : (s.setReg r v).mem = s.mem := rfl
@[simp] theorem setReg_instr (s : State) (r : RegIdx) (v : Word) : (s.setReg r v).instr = s.instr := rfl
@[simp] theorem setReg_events (s : State) (r : RegIdx) (v : Word) : (s.setReg r v).events = s.events := rfl
@[simp] theorem setReg_inputs (s : State) (r : RegIdx) (v : Word) : (s.setReg r v).inputs = s.inputs := rfl
@[simp] theorem setReg_resets (s : State) (r : RegIdx) (v : Word) : (s.setReg r v).resets = s.resets := rfl

/-! Writing `pc`. -/

@[simp] theorem setPc_x (s : State) (v : Word) : (s.setPc v).x = s.x := rfl
@[simp] theorem setPc_pc (s : State) (v : Word) : (s.setPc v).pc = v := rfl
@[simp] theorem setPc_latch (s : State) (v : Word) : (s.setPc v).latch = s.latch := rfl
@[simp] theorem setPc_sr (s : State) (v : Word) : (s.setPc v).sr = s.sr := rfl
@[simp] theorem setPc_run (s : State) (v : Word) : (s.setPc v).run = s.run := rfl
@[simp] theorem setPc_fault (s : State) (v : Word) : (s.setPc v).fault = s.fault := rfl
@[simp] theorem setPc_platform (s : State) (v : Word) : (s.setPc v).platform = s.platform := rfl
@[simp] theorem setPc_mem (s : State) (v : Word) : (s.setPc v).mem = s.mem := rfl
@[simp] theorem setPc_instr (s : State) (v : Word) : (s.setPc v).instr = s.instr := rfl
@[simp] theorem setPc_events (s : State) (v : Word) : (s.setPc v).events = s.events := rfl
@[simp] theorem setPc_inputs (s : State) (v : Word) : (s.setPc v).inputs = s.inputs := rfl
@[simp] theorem setPc_resets (s : State) (v : Word) : (s.setPc v).resets = s.resets := rfl

/-! Writing `sr`. -/

@[simp] theorem setSr_x (s : State) (v : Word) : (s.setSr v).x = s.x := rfl
@[simp] theorem setSr_pc (s : State) (v : Word) : (s.setSr v).pc = s.pc := rfl
@[simp] theorem setSr_latch (s : State) (v : Word) : (s.setSr v).latch = s.latch := rfl
@[simp] theorem setSr_sr (s : State) (v : Word) : (s.setSr v).sr = v := rfl
@[simp] theorem setSr_run (s : State) (v : Word) : (s.setSr v).run = s.run := rfl
@[simp] theorem setSr_fault (s : State) (v : Word) : (s.setSr v).fault = s.fault := rfl
@[simp] theorem setSr_platform (s : State) (v : Word) : (s.setSr v).platform = s.platform := rfl
@[simp] theorem setSr_mem (s : State) (v : Word) : (s.setSr v).mem = s.mem := rfl
@[simp] theorem setSr_instr (s : State) (v : Word) : (s.setSr v).instr = s.instr := rfl
@[simp] theorem setSr_events (s : State) (v : Word) : (s.setSr v).events = s.events := rfl
@[simp] theorem setSr_inputs (s : State) (v : Word) : (s.setSr v).inputs = s.inputs := rfl
@[simp] theorem setSr_resets (s : State) (v : Word) : (s.setSr v).resets = s.resets := rfl

/-! Sending an event. -/

@[simp] theorem emit_x (s : State) (e : Event) : (s.emit e).x = s.x := rfl
@[simp] theorem emit_pc (s : State) (e : Event) : (s.emit e).pc = s.pc := rfl
@[simp] theorem emit_latch (s : State) (e : Event) : (s.emit e).latch = s.latch := rfl
@[simp] theorem emit_sr (s : State) (e : Event) : (s.emit e).sr = s.sr := rfl
@[simp] theorem emit_run (s : State) (e : Event) : (s.emit e).run = s.run := rfl
@[simp] theorem emit_fault (s : State) (e : Event) : (s.emit e).fault = s.fault := rfl
@[simp] theorem emit_platform (s : State) (e : Event) : (s.emit e).platform = s.platform := rfl
@[simp] theorem emit_mem (s : State) (e : Event) : (s.emit e).mem = s.mem := rfl
@[simp] theorem emit_instr (s : State) (e : Event) : (s.emit e).instr = s.instr := rfl
@[simp] theorem emit_events (s : State) (e : Event) : (s.emit e).events = s.events ++ [e] := rfl
@[simp] theorem emit_inputs (s : State) (e : Event) : (s.emit e).inputs = s.inputs := rfl
@[simp] theorem emit_resets (s : State) (e : Event) : (s.emit e).resets = s.resets := rfl

/-! Taking a fatal fault. -/

@[simp] theorem takeFault_x (f : FatalFault) (s : State) : (takeFault f s).x = s.x := rfl
@[simp] theorem takeFault_pc (f : FatalFault) (s : State) : (takeFault f s).pc = s.pc := rfl
@[simp] theorem takeFault_latch (f : FatalFault) (s : State) : (takeFault f s).latch = s.latch := rfl
@[simp] theorem takeFault_sr (f : FatalFault) (s : State) : (takeFault f s).sr = s.sr := rfl
@[simp] theorem takeFault_run (f : FatalFault) (s : State) : (takeFault f s).run = .stopped := rfl
@[simp] theorem takeFault_fault (f : FatalFault) (s : State) : (takeFault f s).fault = s.fault.or (some f) := rfl
@[simp] theorem takeFault_platform (f : FatalFault) (s : State) : (takeFault f s).platform = s.platform := rfl
@[simp] theorem takeFault_mem (f : FatalFault) (s : State) : (takeFault f s).mem = s.mem := rfl
@[simp] theorem takeFault_instr (f : FatalFault) (s : State) : (takeFault f s).instr = s.instr := rfl
@[simp] theorem takeFault_events (f : FatalFault) (s : State) : (takeFault f s).events = s.events ++ [.fault f] := rfl
@[simp] theorem takeFault_inputs (f : FatalFault) (s : State) : (takeFault f s).inputs = s.inputs := rfl
@[simp] theorem takeFault_resets (f : FatalFault) (s : State) : (takeFault f s).resets = s.resets := rfl

/-! Steps 1 to 3 of a cycle. -/

@[simp] theorem beginCycle_x (s : State) : (beginCycle s).x = s.x.set 0 0 := rfl
@[simp] theorem beginCycle_pc (s : State) : (beginCycle s).pc = s.pc := rfl
@[simp] theorem beginCycle_latch (s : State) : (beginCycle s).latch = s.latch := rfl
@[simp] theorem beginCycle_sr (s : State) : (beginCycle s).sr = s.sr := rfl
@[simp] theorem beginCycle_run (s : State) : (beginCycle s).run = s.run := rfl
@[simp] theorem beginCycle_fault (s : State) : (beginCycle s).fault = s.fault := rfl
@[simp] theorem beginCycle_platform (s : State) : (beginCycle s).platform = s.platform := rfl
@[simp] theorem beginCycle_mem (s : State) : (beginCycle s).mem = s.mem := rfl
@[simp] theorem beginCycle_instr (s : State) : (beginCycle s).instr = s.latch := rfl
@[simp] theorem beginCycle_events (s : State) : (beginCycle s).events = if s.platform.trace then s.events ++ [traceEvent s.latch] else s.events := rfl
@[simp] theorem beginCycle_inputs (s : State) : (beginCycle s).inputs = s.inputs := rfl
@[simp] theorem beginCycle_resets (s : State) : (beginCycle s).resets = s.resets := rfl

/-! Steps 4 and 5 of a cycle. -/

@[simp] theorem advance_x (w : Word) (s : State) : (advance w s).x = s.x := rfl
@[simp] theorem advance_pc (w : Word) (s : State) : (advance w s).pc = s.pc + 4 := rfl
@[simp] theorem advance_latch (w : Word) (s : State) : (advance w s).latch = ⟨w, s.pc⟩ := rfl
@[simp] theorem advance_sr (w : Word) (s : State) : (advance w s).sr = s.sr := rfl
@[simp] theorem advance_run (w : Word) (s : State) : (advance w s).run = s.run := rfl
@[simp] theorem advance_fault (w : Word) (s : State) : (advance w s).fault = s.fault := rfl
@[simp] theorem advance_platform (w : Word) (s : State) : (advance w s).platform = s.platform := rfl
@[simp] theorem advance_mem (w : Word) (s : State) : (advance w s).mem = s.mem := rfl
@[simp] theorem advance_instr (w : Word) (s : State) : (advance w s).instr = s.instr := rfl
@[simp] theorem advance_events (w : Word) (s : State) : (advance w s).events = s.events := rfl
@[simp] theorem advance_inputs (w : Word) (s : State) : (advance w s).inputs = s.inputs := rfl
@[simp] theorem advance_resets (w : Word) (s : State) : (advance w s).resets = s.resets := rfl

/-! Taking the pending commands. -/

@[simp] theorem takeInput_x (s : State) : (s.takeInput).x = s.x := rfl
@[simp] theorem takeInput_pc (s : State) : (s.takeInput).pc = s.pc := rfl
@[simp] theorem takeInput_latch (s : State) : (s.takeInput).latch = s.latch := rfl
@[simp] theorem takeInput_sr (s : State) : (s.takeInput).sr = s.sr := rfl
@[simp] theorem takeInput_run (s : State) : (s.takeInput).run = s.run := rfl
@[simp] theorem takeInput_fault (s : State) : (s.takeInput).fault = s.fault := rfl
@[simp] theorem takeInput_platform (s : State) : (s.takeInput).platform = s.platform := rfl
@[simp] theorem takeInput_mem (s : State) : (s.takeInput).mem = s.mem := rfl
@[simp] theorem takeInput_instr (s : State) : (s.takeInput).instr = s.instr := rfl
@[simp] theorem takeInput_events (s : State) : (s.takeInput).events = s.events := rfl
@[simp] theorem takeInput_inputs (s : State) : (s.takeInput).inputs = s.inputs.tail := rfl
@[simp] theorem takeInput_resets (s : State) : (s.takeInput).resets = s.resets := rfl

/-! The `reset` command. -/

@[simp] theorem resetTo_x (b : Boot) (s : State) : (resetTo b s).x = resetRegs s.resets := rfl
@[simp] theorem resetTo_pc (b : Boot) (s : State) : (resetTo b s).pc = b.platform.bios.base := rfl
@[simp] theorem resetTo_latch (b : Boot) (s : State) : (resetTo b s).latch = emptyLatch := rfl
@[simp] theorem resetTo_sr (b : Boot) (s : State) : (resetTo b s).sr = 0 := rfl
@[simp] theorem resetTo_run (b : Boot) (s : State) : (resetTo b s).run = .stopped := rfl
@[simp] theorem resetTo_fault (b : Boot) (s : State) : (resetTo b s).fault = none := rfl
@[simp] theorem resetTo_platform (b : Boot) (s : State) : (resetTo b s).platform = b.platform := rfl
@[simp] theorem resetTo_mem (b : Boot) (s : State) : (resetTo b s).mem = b.image := rfl
@[simp] theorem resetTo_instr (b : Boot) (s : State) : (resetTo b s).instr = emptyLatch := rfl
@[simp] theorem resetTo_events (b : Boot) (s : State) : (resetTo b s).events = s.events := by simp only [resetTo]
@[simp] theorem resetTo_inputs (b : Boot) (s : State) : (resetTo b s).inputs = s.inputs := by simp only [resetTo]
@[simp] theorem resetTo_resets (b : Boot) (s : State) : (resetTo b s).resets = s.resets + 1 := rfl

/-! Erasing what no rule reads. -/

@[simp] theorem eraseUnread_x (s : State) : (eraseUnread s).x = s.x := rfl
@[simp] theorem eraseUnread_pc (s : State) : (eraseUnread s).pc = s.pc := rfl
@[simp] theorem eraseUnread_latch (s : State) : (eraseUnread s).latch = s.latch := rfl
@[simp] theorem eraseUnread_sr (s : State) : (eraseUnread s).sr = 0 := rfl
@[simp] theorem eraseUnread_run (s : State) : (eraseUnread s).run = s.run := rfl
@[simp] theorem eraseUnread_fault (s : State) : (eraseUnread s).fault = none := rfl
@[simp] theorem eraseUnread_platform (s : State) : (eraseUnread s).platform = { s.platform with trace := false } := rfl
@[simp] theorem eraseUnread_mem (s : State) : (eraseUnread s).mem = s.mem := rfl
@[simp] theorem eraseUnread_instr (s : State) : (eraseUnread s).instr = s.instr := rfl
@[simp] theorem eraseUnread_events (s : State) : (eraseUnread s).events = [] := rfl
@[simp] theorem eraseUnread_inputs (s : State) : (eraseUnread s).inputs = s.inputs := rfl
@[simp] theorem eraseUnread_resets (s : State) : (eraseUnread s).resets = s.resets := rfl

/-! The state at the start of step 6. -/

@[simp] theorem atExecute_x (s : State) (w : Word) : (atExecute s w).x = s.x.set 0 0 := rfl
@[simp] theorem atExecute_pc (s : State) (w : Word) : (atExecute s w).pc = s.pc + 4 := rfl
@[simp] theorem atExecute_latch (s : State) (w : Word) : (atExecute s w).latch = ⟨w, s.pc⟩ := rfl
@[simp] theorem atExecute_sr (s : State) (w : Word) : (atExecute s w).sr = s.sr := rfl
@[simp] theorem atExecute_run (s : State) (w : Word) : (atExecute s w).run = s.run := rfl
@[simp] theorem atExecute_fault (s : State) (w : Word) : (atExecute s w).fault = s.fault := rfl
@[simp] theorem atExecute_platform (s : State) (w : Word) : (atExecute s w).platform = s.platform := rfl
@[simp] theorem atExecute_mem (s : State) (w : Word) : (atExecute s w).mem = s.mem := rfl
@[simp] theorem atExecute_instr (s : State) (w : Word) : (atExecute s w).instr = s.latch := rfl
@[simp] theorem atExecute_events (s : State) (w : Word) : (atExecute s w).events = if s.platform.trace then s.events ++ [traceEvent s.latch] else s.events := rfl
@[simp] theorem atExecute_inputs (s : State) (w : Word) : (atExecute s w).inputs = s.inputs.tail := rfl
@[simp] theorem atExecute_resets (s : State) (w : Word) : (atExecute s w).resets = s.resets := rfl

/-! Changing cell 0. -/

@[simp] theorem withCell0_x (s : State) (v : Word) : (withCell0 s v).x = s.x.set 0 v := rfl
@[simp] theorem withCell0_pc (s : State) (v : Word) : (withCell0 s v).pc = s.pc := rfl
@[simp] theorem withCell0_latch (s : State) (v : Word) : (withCell0 s v).latch = s.latch := rfl
@[simp] theorem withCell0_sr (s : State) (v : Word) : (withCell0 s v).sr = s.sr := rfl
@[simp] theorem withCell0_run (s : State) (v : Word) : (withCell0 s v).run = s.run := rfl
@[simp] theorem withCell0_fault (s : State) (v : Word) : (withCell0 s v).fault = s.fault := rfl
@[simp] theorem withCell0_platform (s : State) (v : Word) : (withCell0 s v).platform = s.platform := rfl
@[simp] theorem withCell0_mem (s : State) (v : Word) : (withCell0 s v).mem = s.mem := rfl
@[simp] theorem withCell0_instr (s : State) (v : Word) : (withCell0 s v).instr = s.instr := rfl
@[simp] theorem withCell0_events (s : State) (v : Word) : (withCell0 s v).events = s.events := rfl
@[simp] theorem withCell0_inputs (s : State) (v : Word) : (withCell0 s v).inputs = s.inputs := rfl
@[simp] theorem withCell0_resets (s : State) (v : Word) : (withCell0 s v).resets = s.resets := rfl

/-! The registers under the updates. -/

/-- A written register reads as the value written. -/
@[simp] theorem reg_setReg_same (s : State) (r : RegIdx) (v : Word) : (s.setReg r v).reg r = v := by
  simp [State.reg]

/-- A write of one register leaves every other register alone. -/
theorem reg_setReg_ne (s : State) {r q : RegIdx} (v : Word) (h : q ≠ r) : (s.setReg r v).reg q = s.reg q := by
  have hne : r.toNat ≠ q.toNat := fun e => h (BitVec.eq_of_toNat_eq e.symm)
  simp [State.reg, Vector.getElem_set_ne, hne]

/-- Two states with the same cells read the same registers. -/
theorem reg_eq_of_x_eq {s t : State} (h : t.x = s.x) (q : RegIdx) : t.reg q = s.reg q := by
  simp [State.reg, h]

/-- Two states whose registers read alike have the same cells. -/
theorem x_eq_of_reg_eq {s t : State} (h : ∀ q, t.reg q = s.reg q) : t.x = s.x := by
  apply Vector.ext
  intro i hi
  have := h (BitVec.ofNat 5 i)
  simpa [State.reg, Nat.mod_eq_of_lt hi] using this

@[simp] theorem reg_setPc (s : State) (v : Word) (q : RegIdx) : (s.setPc v).reg q = s.reg q := rfl
@[simp] theorem reg_setSr (s : State) (v : Word) (q : RegIdx) : (s.setSr v).reg q = s.reg q := rfl
@[simp] theorem reg_emit (s : State) (e : Event) (q : RegIdx) : (s.emit e).reg q = s.reg q := rfl
@[simp] theorem reg_takeFault (f : FatalFault) (s : State) (q : RegIdx) : (takeFault f s).reg q = s.reg q := rfl
@[simp] theorem reg_advance (w : Word) (s : State) (q : RegIdx) : (advance w s).reg q = s.reg q := rfl
@[simp] theorem reg_takeInput (s : State) (q : RegIdx) : s.takeInput.reg q = s.reg q := rfl
@[simp] theorem reg_eraseUnread (s : State) (q : RegIdx) : (eraseUnread s).reg q = s.reg q := rfl

/-- Step 1 of a cycle clears cell 0. -/
@[simp] theorem reg_beginCycle_zero (s : State) : (beginCycle s).reg 0 = 0 :=
  reg_setReg_same s 0 0

/-- Step 1 of a cycle clears no other cell. -/
theorem reg_beginCycle_ne (s : State) {q : RegIdx} (h : q ≠ 0) : (beginCycle s).reg q = s.reg q :=
  reg_setReg_ne s 0 h

@[simp] theorem reg_atExecute_zero (s : State) (w : Word) : (atExecute s w).reg 0 = 0 :=
  reg_setReg_same s 0 0

theorem reg_atExecute_ne (s : State) (w : Word) {q : RegIdx} (h : q ≠ 0) : (atExecute s w).reg q = s.reg q :=
  reg_setReg_ne s 0 h

/-- The `reset` command clears cell 0; it says nothing of the other cells. -/
@[simp] theorem reg_resetTo_zero (b : Boot) (s : State) : (resetTo b s).reg 0 = 0 := by
  simp [State.reg, resetRegs]

@[simp] theorem endCycle_next (s : State) : endCycle (.next s) = .next { s with instr := emptyLatch } := rfl

end Sys2Proof.Machine
end

