-- ==== Sys2Proof/Laws/Ops.lean ====
section
/-! SUPPORT. What each shared operation can answer: the address tests, the bus, and the end of a handler. -/

namespace Sys2Proof.Machine

theorem aligned_eq_true (a : Word) : aligned a = true ↔ a.toNat % 4 = 0 := by simp [aligned]

theorem aligned_eq_false (a : Word) : aligned a = false ↔ a.toNat % 4 ≠ 0 := by simp [aligned]

theorem inRange_eq_true (r : AddressRange) (a : Word) :
    inRange r a = true ↔ r.base.toNat ≤ a.toNat ∧ a.toNat < r.base.toNat + r.len := by simp [inRange]

/-- A read returns exactly for an aligned address of the BIOS range, and then the image's word. -/
theorem busRead32_ok {s : State} {a w : Word} :
    busRead32 s a = .ok w ↔
      aligned a = true ∧ inRange s.platform.bios a = true ∧ biosRead32 s (offsetIn s.platform.bios a) = w := by
  unfold busRead32
  cases aligned a <;> cases inRange s.platform.bios a <;> simp

/-- Why a read raises. -/
theorem busRead32_error {s : State} {a : Word} {f : FatalFault} :
    busRead32 s a = .error f ↔
      (aligned a = false ∧ f = .unalignedAccess a) ∨
      (aligned a = true ∧ inRange s.platform.bios a = false ∧ f = .unmappedRead a .bios) := by
  unfold busRead32
  cases aligned a <;> cases inRange s.platform.bios a <;> simp [eq_comm]

/-- A read depends on the BIOS range and the image alone. -/
theorem busRead32_congr {s t : State} (hp : t.platform.bios = s.platform.bios) (hm : t.mem = s.mem) (a : Word) :
    busRead32 t a = busRead32 s a := by
  simp [busRead32, biosRead32, hp, hm]

@[simp] theorem busRead32_beginCycle (s : State) (a : Word) : busRead32 (beginCycle s) a = busRead32 s a :=
  busRead32_congr rfl rfl a

@[simp] theorem busRead32_takeInput (s : State) (a : Word) : busRead32 s.takeInput a = busRead32 s a :=
  busRead32_congr rfl rfl a

@[simp] theorem busRead32_atExecute (s : State) (w a : Word) : busRead32 (atExecute s w) a = busRead32 s a :=
  busRead32_congr rfl rfl a

/-- What a write can answer: a fault of one of two kinds, or the same state with one diagnostic sent. -/
theorem busWrite32_cases (s : State) (a v : Word) :
    (aligned a = false ∧ busWrite32 s a v = .error (.unalignedAccess a)) ∨
    (aligned a = true ∧ inRange s.platform.memctl a = true ∧
      busWrite32 s a v = .ok (s.emit (.unimplementedStore .normal a v))) ∨
    (aligned a = true ∧ inRange s.platform.memctl a = false ∧ a = ramSizeAddr ∧
      busWrite32 s a v = .ok (s.emit (.unimplementedStore .low a v))) ∨
    (aligned a = true ∧ inRange s.platform.memctl a = false ∧ a ≠ ramSizeAddr ∧
      busWrite32 s a v = .error (.unmappedWrite a v)) := by
  unfold busWrite32
  cases aligned a <;> cases inRange s.platform.memctl a <;> by_cases h : a = ramSizeAddr <;> simp [h]

@[simp] theorem settle_ok (s t : State) : settle s (.ok t) = .next t := rfl

@[simp] theorem settle_error (s : State) (f : FatalFault) : settle s (.error f) = .next (takeFault f s) := rfl

end Sys2Proof.Machine
end

