-- ==== Sys2Proof/Laws/Exec.lean ====
section
/-! SUPPORT. What a handler can do: it always answers a next state, and never touches the background. -/

namespace Sys2Proof.Machine

/-- What SW answers: the fault of the bus, or the diagnostic. -/
theorem execSw_cases (rt : RegIdx) (imm : Imm16) (rs : RegIdx) (s : State) :
    (∃ f, execSw rt imm rs s = .next (takeFault f s) ∧
      busWrite32 s (effectiveAddress s rs imm) (s.reg rt) = .error f) ∨
    (∃ sev, execSw rt imm rs s =
      .next (s.emit (.unimplementedStore sev (effectiveAddress s rs imm) (s.reg rt)))) := by
  unfold execSw
  rcases busWrite32_cases s (effectiveAddress s rs imm) (s.reg rt) with ⟨_, h⟩ | ⟨_, _, h⟩ | ⟨_, _, _, h⟩ | ⟨_, _, _, h⟩
  · exact .inl ⟨_, by rw [h, settle_error], h⟩
  · exact .inr ⟨_, by rw [h, settle_ok]⟩
  · exact .inr ⟨_, by rw [h, settle_ok]⟩
  · exact .inl ⟨_, by rw [h, settle_error], h⟩

/-- What BNE answers: the same state when the operands are equal, and the fault of R127 otherwise. -/
theorem execBne_cases (rs rt : RegIdx) (imm : Imm16) (s : State) :
    (s.reg rs = s.reg rt ∧ execBne rs rt imm s = .next s) ∨
    (s.reg rs ≠ s.reg rt ∧
      execBne rs rt imm s = .next (takeFault (.unhandledInstruction s.instr.addr 0x05 none) s)) := by
  unfold execBne
  by_cases h : s.reg rs = s.reg rt <;> simp [h]

/-- Every handler answers a next state, and the background of the state is as it was. -/
theorem exec_next (i : Instr) (s : State) : ∃ t, exec i s = .next t ∧ SameBackground s t := by
  cases i with
  | lui rt imm => exact ⟨_, rfl, rfl, rfl, rfl, rfl, rfl, rfl, fun _ => rfl⟩
  | ori rt rs imm => exact ⟨_, rfl, rfl, rfl, rfl, rfl, rfl, rfl, fun _ => rfl⟩
  | addiu rt rs imm => exact ⟨_, rfl, rfl, rfl, rfl, rfl, rfl, rfl, fun _ => rfl⟩
  | sw rt imm rs =>
    rcases execSw_cases rt imm rs s with ⟨f, h, _⟩ | ⟨sev, h⟩
    · exact ⟨_, h, rfl, rfl, rfl, rfl, rfl, rfl, fun _ => rfl⟩
    · exact ⟨_, h, rfl, rfl, rfl, rfl, rfl, rfl, fun _ => rfl⟩
  | j target => exact ⟨_, rfl, rfl, rfl, rfl, rfl, rfl, rfl, fun _ => rfl⟩
  | bne rs rt imm =>
    rcases execBne_cases rs rt imm s with ⟨_, h⟩ | ⟨_, h⟩
    · exact ⟨_, h, rfl, rfl, rfl, rfl, rfl, rfl, fun _ => rfl⟩
    · exact ⟨_, h, rfl, rfl, rfl, rfl, rfl, rfl, fun _ => rfl⟩
  | mtc0 rt rd =>
    by_cases h : rd = statusRegister
    · exact ⟨s.setSr (s.reg rt), by simp [exec, execMtc0, h], rfl, rfl, rfl, rfl, rfl, rfl, fun _ => rfl⟩
    · exact ⟨s, by simp [exec, execMtc0, h], rfl, rfl, rfl, rfl, rfl, rfl, fun _ => rfl⟩
  | or rd rs rt => exact ⟨_, rfl, rfl, rfl, rfl, rfl, rfl, rfl, fun _ => rfl⟩
  | sll rd rt sa => exact ⟨_, rfl, rfl, rfl, rfl, rfl, rfl, rfl, fun _ => rfl⟩

/-- Executing the word taken from the latch always answers a next state, and the background is as it was. -/
theorem execute_next (s : State) : ∃ t, execute s = .next t ∧ SameBackground s t := by
  unfold execute
  cases decodeWord s.instr.word with
  | ok i => exact exec_next i s
  | error m => exact ⟨_, rfl, rfl, rfl, rfl, rfl, rfl, rfl, fun _ => rfl⟩

end Sys2Proof.Machine
end

