-- ==== Sys2Proof/Laws/Cycle.lean ====
section
/-! SUPPORT. What a cycle and a step can do, said once. -/

namespace Sys2Proof.Machine

/-- The state at the start of step 6 is the one the first five steps build. -/
theorem advance_beginCycle_takeInput (s : State) (w : Word) : advance w (beginCycle s.takeInput) = atExecute s w := by
  rfl

/-- A cycle whose fetch raises. -/
theorem cycle_of_fetch_error {s : State} {f : FatalFault} (h : busRead32 s s.pc = .error f) :
    cycle s = .next { takeFault f (beginCycle s) with instr := emptyLatch } := by
  simp only [cycle, busRead32_beginCycle, h, endCycle_next]

/-- A cycle whose fetch returns a word. -/
theorem cycle_of_fetch_ok {s : State} {w : Word} (h : busRead32 s s.pc = .ok w) :
    cycle s = endCycle (execute (advance w (beginCycle s))) := by
  simp only [cycle, busRead32_beginCycle, h]

/-- What a cycle can do: take the fault of its fetch, or execute. It always answers a next state. -/
theorem cycle_cases (s : State) :
    (∃ f, busRead32 s s.pc = .error f ∧ cycle s = .next { takeFault f (beginCycle s) with instr := emptyLatch }) ∨
    (∃ w u, busRead32 s s.pc = .ok w ∧ execute (advance w (beginCycle s)) = .next u ∧
      SameBackground (advance w (beginCycle s)) u ∧ cycle s = .next { u with instr := emptyLatch }) := by
  cases h : busRead32 s s.pc with
  | error f => exact .inl ⟨f, rfl, cycle_of_fetch_error h⟩
  | ok w =>
    obtain ⟨u, hu, hb⟩ := execute_next (advance w (beginCycle s))
    exact .inr ⟨w, u, rfl, hu, hb, by rw [cycle_of_fetch_ok h, hu, endCycle_next]⟩

/-- When a cycle is due, a step is that cycle, the pending commands taken. -/
theorem step_of_cycleDue {s : State} (h : CycleDue s) : step s = cycle s.takeInput := by
  rcases h with ⟨hr, hc⟩ | ⟨hr, hc⟩
  · simp [step, boundary, serve, hc, runLoop, hr]
  · simp [step, boundary, serve, hc, serveStep, hr]

/-- What a step can do: serve a reset, stop, start, report, do nothing, or be a cycle. -/
theorem step_cases (s : State) :
    (∃ b, s.pending.select = .reset b ∧ step s = serveReset b s.takeInput) ∨
    (s.pending.select = .pause ∧ step s = .next { s.takeInput with run := .stopped }) ∨
    (s.pending.select = .start ∧ s.run = .stopped ∧ biosPresent s = true ∧
      step s = .next { s.takeInput with run := .running }) ∨
    (s.pending.select = .start ∧ s.run = .stopped ∧ biosPresent s = false ∧
      step s = .next (s.takeInput.emit .cannotStart)) ∨
    (¬ CycleDue s ∧ step s = .next s.takeInput) ∨
    (CycleDue s ∧ step s = cycle s.takeInput) := by
  cases hc : s.pending.select with
  | reset b => exact .inl ⟨b, rfl, by simp [step, boundary, serve, hc]⟩
  | pause => exact .inr (.inl ⟨rfl, by simp [step, boundary, serve, hc, servePause]⟩)
  | start =>
    cases hr : s.run with
    | running =>
      refine .inr (.inr (.inr (.inr (.inl ⟨?_, by simp [step, boundary, serve, hc, serveStart, hr]⟩))))
      simp [CycleDue, hc, hr]
    | stopped =>
      cases hb : biosPresent s with
      | true =>
        refine .inr (.inr (.inl ⟨rfl, rfl, rfl, ?_⟩))
        have hb' : biosPresent s.takeInput = true := hb
        simp [step, boundary, serve, hc, serveStart, hr, hb']
      | false =>
        refine .inr (.inr (.inr (.inl ⟨rfl, rfl, rfl, ?_⟩)))
        have hb' : biosPresent s.takeInput = false := hb
        simp [step, boundary, serve, hc, serveStart, hr, hb']
  | step =>
    cases hr : s.run with
    | running =>
      refine .inr (.inr (.inr (.inr (.inl ⟨?_, by simp [step, boundary, serve, hc, serveStep, hr]⟩))))
      simp [CycleDue, hc, hr]
    | stopped =>
      have hd : CycleDue s := .inr ⟨hr, hc⟩
      exact .inr (.inr (.inr (.inr (.inr ⟨hd, step_of_cycleDue hd⟩))))
  | none =>
    cases hr : s.run with
    | running =>
      have hd : CycleDue s := .inl ⟨hr, hc⟩
      exact .inr (.inr (.inr (.inr (.inr ⟨hd, step_of_cycleDue hd⟩))))
    | stopped =>
      refine .inr (.inr (.inr (.inr (.inl ⟨?_, by simp [step, boundary, serve, hc, runLoop, hr]⟩))))
      simp [CycleDue, hc, hr]

/-- The lookup of a word that decodes hits the handler of its instruction. -/
theorem lookupHandler_of_decodeWord {w : Word} {i : Instr} (h : decodeWord w = .ok i) :
    lookupHandler (fields w) = .ok (handlerOf i) := by
  unfold decodeWord at h
  cases hr : lookupHandler (fields w) with
  | error m => rw [hr] at h; cases h
  | ok k =>
    rw [hr] at h
    cases k <;> simp only [instrOf] at h <;> (try split at h) <;> cases h <;> rfl

end Sys2Proof.Machine
end

