-- ==== Sys2Proof/Laws/PerInstr.lean ====
section
/-! SUPPORT. Statements about every instruction as syntax, one lemma per constructor.
The family EncodesItsRow: the canonical word of an instruction lies in the instruction's own row of
spec/opcode_table.json, and has 0 in every ignored bit (30_encoding.md R75, R77). -/

namespace Sys2Proof.Laws.EncodesItsRow

/-- The row of the opcode table an instruction belongs to. -/
def row : Instr → TableRow
  | .lui _ _ => ⟨"LUI", 0x3C000000, 0xFC000000⟩
  | .ori _ _ _ => ⟨"ORI", 0x34000000, 0xFC000000⟩
  | .addiu _ _ _ => ⟨"ADDIU", 0x24000000, 0xFC000000⟩
  | .sw _ _ _ => ⟨"SW", 0xAC000000, 0xFC000000⟩
  | .j _ => ⟨"J", 0x08000000, 0xFC000000⟩
  | .bne _ _ _ => ⟨"BNE", 0x14000000, 0xFC000000⟩
  | .mtc0 _ _ => ⟨"MTC0", 0x40800000, 0xFFE00000⟩
  | .or _ _ _ => ⟨"OR", 0x00000025, 0xFC00003F⟩
  | .sll _ _ _ => ⟨"SLL", 0x00000000, 0xFC00003F⟩

/-- The statement of the family. -/
def Statement (i : Instr) : Prop :=
  row i ∈ opcodeTable ∧ encode i &&& (row i).mask = (row i).matchBits ∧ encode i &&& usedBits i = encode i

theorem lui (rt : RegIdx) (imm : Imm16) : Statement (.lui rt imm) := by
  refine ⟨by simp [row, opcodeTable], ?_, ?_⟩ <;> apply BitVec.eq_of_getLsbD_eq <;> intro k hk <;>
    simp only [encode, row, usedBits, BitVec.getLsbD_and, getLsbD_formatI] <;> interval_cases k <;> simp

theorem ori (rt rs : RegIdx) (imm : Imm16) : Statement (.ori rt rs imm) := by
  refine ⟨by simp [row, opcodeTable], ?_, ?_⟩ <;> apply BitVec.eq_of_getLsbD_eq <;> intro k hk <;>
    simp only [encode, row, usedBits, BitVec.getLsbD_and, getLsbD_formatI] <;> interval_cases k <;> simp

theorem addiu (rt rs : RegIdx) (imm : Imm16) : Statement (.addiu rt rs imm) := by
  refine ⟨by simp [row, opcodeTable], ?_, ?_⟩ <;> apply BitVec.eq_of_getLsbD_eq <;> intro k hk <;>
    simp only [encode, row, usedBits, BitVec.getLsbD_and, getLsbD_formatI] <;> interval_cases k <;> simp

theorem sw (rt : RegIdx) (imm : Imm16) (rs : RegIdx) : Statement (.sw rt imm rs) := by
  refine ⟨by simp [row, opcodeTable], ?_, ?_⟩ <;> apply BitVec.eq_of_getLsbD_eq <;> intro k hk <;>
    simp only [encode, row, usedBits, BitVec.getLsbD_and, getLsbD_formatI] <;> interval_cases k <;> simp

theorem j (target : BitVec 26) : Statement (.j target) := by
  refine ⟨by simp [row, opcodeTable], ?_, ?_⟩ <;> apply BitVec.eq_of_getLsbD_eq <;> intro k hk <;>
    simp only [encode, row, usedBits, BitVec.getLsbD_and, getLsbD_formatJ] <;> interval_cases k <;> simp

theorem bne (rs rt : RegIdx) (imm : Imm16) : Statement (.bne rs rt imm) := by
  refine ⟨by simp [row, opcodeTable], ?_, ?_⟩ <;> apply BitVec.eq_of_getLsbD_eq <;> intro k hk <;>
    simp only [encode, row, usedBits, BitVec.getLsbD_and, getLsbD_formatI] <;> interval_cases k <;> simp

theorem mtc0 (rt rd : RegIdx) : Statement (.mtc0 rt rd) := by
  refine ⟨by simp [row, opcodeTable], ?_, ?_⟩ <;> apply BitVec.eq_of_getLsbD_eq <;> intro k hk <;>
    simp only [encode, row, usedBits, BitVec.getLsbD_and, getLsbD_formatC0] <;> interval_cases k <;> simp

theorem or (rd rs rt : RegIdx) : Statement (.or rd rs rt) := by
  refine ⟨by simp [row, opcodeTable], ?_, ?_⟩ <;> apply BitVec.eq_of_getLsbD_eq <;> intro k hk <;>
    simp only [encode, row, usedBits, BitVec.getLsbD_and, getLsbD_formatR] <;> interval_cases k <;> simp

theorem sll (rd rt : RegIdx) (shamt : BitVec 5) : Statement (.sll rd rt shamt) := by
  refine ⟨by simp [row, opcodeTable], ?_, ?_⟩ <;> apply BitVec.eq_of_getLsbD_eq <;> intro k hk <;>
    simp only [encode, row, usedBits, BitVec.getLsbD_and, getLsbD_formatR] <;> interval_cases k <;> simp

end Sys2Proof.Laws.EncodesItsRow
end

