-- ==== Sys2Proof/Tests/Slice0.lean ====
section
/-! SUPPORT. Tests on fixed values. Every expected value is taken from spec/: the worked vectors of 95_test_vectors.md, the
examples of the instruction rules, or a hand calculation from the rule named. -/

namespace Sys2Proof.Tests

open Sys2Proof.Machine

/-! ## Helpers -/

/-- The default platform without the trace event. -/
def quiet : Platform := { defaultPlatform with trace := false }

/-- The default platform with a BIOS of `n` bytes, without the trace event. -/
def short (n : Nat) : Platform := { quiet with bios := ⟨0xBFC00000, n⟩ }

/-- A Running engine whose pending word `w` was fetched from 0xBFC00000, with some registers set and an empty image. -/
def pend (w : Word) (regs : List (RegIdx × Word)) : State :=
  regs.foldl (fun s r => s.setReg r.1 r.2)
    { State.reset with platform := quiet, run := .running, latch := ⟨w, 0xBFC00000⟩, pc := 0xBFC00004 }

/-- The image with the words `ws` from 0xBFC00000 on. -/
def rom (ws : List Word) : Memory := Memory.loadWords [] 0xBFC00000 ws

/-- A Running engine over an image, its pending word the first of it. -/
def onRom (ws : List Word) : State :=
  { pend (ws.headD 0) [] with mem := rom ws }

/-- The state with one command pending. -/
def withCommand (c : HostInput) (s : State) : State := { s with inputs := [c] }

def cmdPause : HostInput := ⟨none, true, false, false⟩
def cmdStart : HostInput := ⟨none, false, true, false⟩
def cmdStep : HostInput := ⟨none, false, false, true⟩
def cmdReset (p : Platform) (m : Memory) : HostInput := ⟨some ⟨p, m⟩, false, false, false⟩

/-- The next state, if there is one. -/
def after : Result → Option State
  | .next t => some t
  | .fault _ => none
  | .refused _ => none

/-- What one step answers about the next state. -/
def see {α : Type} (f : State → α) (s : State) : Option α := (after (step s)).map f

/-! ## Well-formedness: each check with a term it refuses -/

theorem test_word_with_an_empty_primary_entry_is_ill_formed : wordWellFormed 0x8C220000 = false := by decide
theorem test_word_with_an_empty_special_entry_is_ill_formed : wordWellFormed 0x0000000C = false := by decide
theorem test_word_with_a_wrong_selector_is_ill_formed : wordWellFormed 0x40004000 = false := by decide
theorem test_words_of_the_rows_are_well_formed :
    [0x3C011234, 0x34215678, 0x24020005, 0xAC221010, 0x0BF00004, 0x1422FFFD, 0x40886000, 0x00221825, 0x00021880].all
      wordWellFormed = true := by decide
theorem test_bios_base_must_be_aligned :
    ({ defaultPlatform with bios := ⟨0xBFC00002, 8⟩ } : Platform).wellFormed = false := by decide
theorem test_bios_length_must_be_aligned :
    ({ defaultPlatform with bios := ⟨0xBFC00000, 6⟩ } : Platform).wellFormed = false := by decide
theorem test_bios_must_not_wrap :
    ({ defaultPlatform with bios := ⟨0xFFFFFFFC, 8⟩ } : Platform).wellFormed = false := by decide
theorem test_memctl_must_not_wrap :
    ({ defaultPlatform with memctl := ⟨0xFFFFFFFF, 2⟩ } : Platform).wellFormed = false := by decide
theorem test_a_range_may_end_at_the_top :
    ({ defaultPlatform with bios := ⟨0xFFFFFFFC, 4⟩ } : Platform).wellFormed = true := by decide
theorem test_unsorted_image_is_refused : Memory.wf [(5, 1), (4, 1)] = false := by decide
theorem test_image_listing_an_unlisted_value_is_refused : Memory.wf [(4, 0)] = false := by decide

/-! ## Decoding: words of 95_test_vectors.md; bits written out from the formats of 30_encoding.md -/

theorem test_decode_lui : decodeWord 0b001111_00000_00001_0001001000110100 = .ok (.lui 1 0x1234) := by decide
theorem test_decode_ori : decodeWord 0b001101_00001_00001_0101011001111000 = .ok (.ori 1 1 0x5678) := by decide
theorem test_decode_addiu : decodeWord 0b001001_00000_00010_0000000000000101 = .ok (.addiu 2 0 5) := by decide
theorem test_decode_sw : decodeWord 0b101011_00001_00010_0001000000010000 = .ok (.sw 2 0x1010 1) := by decide
theorem test_decode_j : decodeWord 0b000010_11111100000000000000000100 = .ok (.j 0x3F00004) := by decide
theorem test_decode_bne : decodeWord 0b000101_00001_00010_1111111111111101 = .ok (.bne 1 2 0xFFFD) := by decide
theorem test_decode_mtc0 : decodeWord 0b010000_00100_01000_01100_00000000000 = .ok (.mtc0 8 12) := by decide
theorem test_decode_or : decodeWord 0b000000_00001_00010_00011_00000_100101 = .ok (.or 3 1 2) := by decide
theorem test_decode_sll : decodeWord 0b000000_00000_00010_00011_00010_000000 = .ok (.sll 3 2 2) := by decide
/-- Ignored fields (R75): LUI with `rs = 31`, OR with `shamt = 31`, SLL with `rs = 31`, MTC0 with bits 10:0 all ones. -/
theorem test_decode_ignores_unused_fields :
    decodeWord 0x3FE5ABCD = .ok (.lui 5 0xABCD) ∧ decodeWord 0x00221FE5 = .ok (.or 3 1 2) ∧
    decodeWord 0x03E21900 = .ok (.sll 3 2 4) ∧ decodeWord 0x408867FF = .ok (.mtc0 8 12) := by decide
theorem test_decode_refuses_by_name :
    decodeWord 0x04000000 = .error (.primary 0x01) ∧ decodeWord 0xFFFFFFFF = .error (.primary 0x3F) ∧
    decodeWord 0x00000021 = .error (.special 0x21) ∧ decodeWord 0x42000010 = .error (.cop0 16) := by decide
/-- The first word of the image stands little-endian in its bytes (20_memory.md R45). -/
theorem test_decode_bytes_little_endian :
    decodeBytes [0x34, 0x12, 0x01, 0x3C, 0xFF] = .ok (.lui 1 0x1234, [0xFF]) := by decide
theorem test_decode_bytes_needs_a_whole_word : decodeBytes [0x34, 0x12, 0x01] = .error .truncated := by decide
theorem test_decode_table_word : decodeTableWord 32 0xAC221010 = some (.sw 2 0x1010 1) := by decide
theorem test_fields_of_the_sign_boundary :
    (fields 0x00008000).immSx = 0xFFFF8000 ∧ (fields 0x00007FFF).immSx = 0x00007FFF ∧
    (fields 0xAAAAAAAA).rs = 21 ∧ (fields 0xAAAAAAAA).rt = 10 ∧ (fields 0x55555555).shamt = 21 ∧
    (fields 0x0BF00004).target = 0x3F00004 := by decide
theorem test_assembled_jump : encode (assembleJ 0xBFC00010) = 0x0BF00004 := by decide
theorem test_nop_word : nopWord = encode (.sll 0 0 0) ∧ isNop nopWord = true ∧ isNop 0x00001800 = true ∧
    isNop 0x00021800 = false := by decide

/-! ## One step of each instruction -/

theorem test_lui_has_no_sign_effect : see (·.reg 5) (pend 0x3C058000 [(5, 7)]) = some 0x80000000 := by decide
theorem test_lui_to_register_zero_is_seen_between_cycles :
    see (fun t => (hostView t).x[0]) (pend 0x3C000001 []) = some 0x00010000 := by decide
theorem test_ori_zero_extends : see (·.reg 2) (pend 0x34028000 []) = some 0x00008000 := by decide
theorem test_ori_in_place : see (·.reg 1) (pend 0x34215678 [(1, 0x12340000)]) = some 0x12345678 := by decide
theorem test_addiu_wraps : see (·.reg 1) (pend 0x24210001 [(1, 0xFFFFFFFF)]) = some 0 := by decide
theorem test_addiu_sign_extends : see (·.reg 2) (pend 0x24228000 [(1, 0x80000000)]) = some 0x7FFF8000 := by decide
theorem test_or : see (·.reg 3) (pend 0x00221FE5 [(1, 0xF0F00000), (2, 0x0000F0F0)]) = some 0xF0F0F0F0 := by decide
theorem test_or_clears : see (·.reg 1) (pend 0x00000825 [(0, 9), (1, 9)]) = some 0 := by decide
theorem test_sll_loses_the_top_bit : see (·.reg 2) (pend 0x00021040 [(2, 0x80000001)]) = some 0x00000002 := by decide
theorem test_sll_by_31 : see (·.reg 3) (pend 0x00021FC0 [(2, 0xFFFFFFFF)]) = some 0x80000000 := by decide
theorem test_sw_to_memctl :
    see (fun t => (t.events, t.fault, t.run)) (pend 0xAC221020 [(1, 0x1F800000), (2, 0xDEADBEEF)]) =
      some ([.unimplementedStore .normal 0x1F801020 0xDEADBEEF], none, .running) := by decide
theorem test_sw_wraps_and_is_unmapped :
    see (fun t => (t.events, t.fault, t.run)) (pend 0xAC220008 [(1, 0xFFFFFFFC), (2, 0x55)]) =
      some ([.fault (.unmappedWrite 0x00000004 0x55)], some (.unmappedWrite 0x00000004 0x55), .stopped) := by decide
theorem test_j_keeps_the_segment : see (fun t => (t.pc, t.fault)) (pend 0x08000000 []) = some (0xB0000000, none) := by decide
/-- R185: the delay slot of this J is the last word of its segment. -/
theorem test_j_takes_the_segment_of_the_incremented_pc :
    (after (exec (.j 4) { pend 0x08000004 [] with pc := 0xC0000000 })).map (·.pc) = some 0xC0000010 := by decide
theorem test_bne_of_equals : see (fun t => (t.pc, t.fault)) (pend 0x1422FFFD [(1, 3), (2, 3)]) = some (0xBFC00008, none) := by
  decide
theorem test_bne_of_unequals : see (fun t => (t.pc, t.fault)) (pend 0x1422FFFD [(1, 3), (2, 4)]) =
    some (0xBFC00008, some (.unhandledInstruction 0xBFC00000 0x05 none)) := by decide
theorem test_mtc0_writes_sr : see (·.sr) (pend 0x408867FF [(8, 0xFFFFFFFF)]) = some 0xFFFFFFFF := by decide
theorem test_mtc0_of_another_number : see (fun t => (t.sr, t.fault)) (pend 0x40886800 [(8, 1)]) = some (0, none) := by decide

/-! ## Faults, the bus, the cycle -/

theorem test_illegal_words_take_unhandled_instruction :
    see (·.fault) (pend 0x8C220000 []) = some (some (.unhandledInstruction 0xBFC00000 0x23 none)) ∧
    see (·.fault) (pend 0x0000000C []) = some (some (.unhandledInstruction 0xBFC00000 0x00 (some 0x0C))) ∧
    see (·.fault) (pend 0x40004000 []) = some (some (.unhandledInstruction 0xBFC00000 0x10 (some 0x00))) ∧
    see (·.fault) (pend 0x42000010 []) = some (some (.unhandledInstruction 0xBFC00000 0x10 (some 0x10))) := by decide
/-- The rest of the row P13: the pending word stays and `pc` does not move. -/
theorem test_fetch_past_the_image :
    see (fun t => (t.fault, t.pc, t.latch, t.run))
        { pend 0x24210001 [] with platform := short 8, pc := 0xBFC00008, latch := ⟨0x24210001, 0xBFC00004⟩ } =
      some (some (.unmappedRead 0xBFC00008 .bios), 0xBFC00008, ⟨0x24210001, 0xBFC00004⟩, .stopped) := by decide
theorem test_fault_codes_and_fields :
    (FatalFault.unmappedWrite 0 0xB88).code = 3 ∧ (FatalFault.unmappedWrite 0 0xB88).value? = some 0xB88 ∧
    (FatalFault.unmappedWrite 0 0xB88).opcode? = none ∧ (FatalFault.unmappedRead 4 .bios).device?.map Device.id = some 0 ∧
    (FatalFault.unhandledInstruction 4 0x23 none).code = 4 ∧ (FatalFault.unhandledInstruction 4 0x23 none).subop? = none := by
  decide
theorem test_the_first_fault_is_kept :
    see (·.fault) { pend 0x8C220000 [] with fault := some (.unalignedAccess 1) } = some (some (.unalignedAccess 1)) := by decide
theorem test_bus_read_of_a_loaded_image :
    busRead32 (onRom [0x3C011234, 0x34215678]) 0xBFC00004 = .ok 0x34215678 := by decide
theorem test_bus_read_edges :
    busRead32 (pend 0 []) 0xBFC7FFFC = .ok 0 ∧
    busRead32 (pend 0 []) 0xBFC80000 = .error (.unmappedRead 0xBFC80000 .bios) ∧
    busRead32 (pend 0 []) 0xBFBFFFFC = .error (.unmappedRead 0xBFBFFFFC .bios) ∧
    busRead32 (pend 0 []) 0x1FC00000 = .error (.unmappedRead 0x1FC00000 .bios) ∧
    busRead32 (pend 0 []) 0x1F801000 = .error (.unmappedRead 0x1F801000 .bios) ∧
    busRead32 (pend 0 []) 0xBFC00002 = .error (.unalignedAccess 0xBFC00002) ∧
    busRead32 (pend 0 []) 0x00001001 = .error (.unalignedAccess 0x00001001) := by decide
theorem test_cell_zero_is_cleared_before_it_is_read :
    see (fun t => (t.reg 0, t.reg 1)) (pend 0x00000825 [(0, 5), (1, 0xAAAAAAAA)]) = some (0, 0) := by decide
theorem test_a_cycle_fetches_before_it_executes :
    see (fun t => (t.pc, t.latch)) (onRom [0x0BF00004, 0x24210001]) =
      some (0xBFC00010, ⟨0x24210001, 0xBFC00004⟩) := by decide
theorem test_trace_event :
    see (·.events) { pend 0x3C011234 [] with platform := defaultPlatform } =
      some [.trace 0xBFC00000 0x0F (some .lui) false] := by decide
theorem test_trace_event_of_words_without_an_instruction :
    see (·.events.head?) { pend 0x8C220000 [] with platform := defaultPlatform } =
      some (some (.trace 0xBFC00000 0x23 none false)) ∧
    see (·.events.head?) { pend 0x0000000C [] with platform := defaultPlatform } =
      some (some (.trace 0xBFC00000 0x00 none false)) := by decide
/-- Four bytes of the image, the lowest address least significant (20_memory.md R45). -/
theorem test_bios_word_is_little_endian :
    biosRead32 { State.reset with mem := [(0xBFC00004, 0x78), (0xBFC00005, 0x56), (0xBFC00006, 0x34), (0xBFC00007, 0x12)] } 4 =
      0x12345678 := by decide
theorem test_pc_wraps :
    see (·.pc) { pend 0 [] with platform := { quiet with bios := ⟨0xFFFFFFF0, 16⟩ }, pc := 0xFFFFFFFC } = some 0 := by decide

/-! ## The host -/

theorem test_reset_latch_executes_first :
    see (fun t => (t.pc, t.latch, t.fault)) { State.reset with inputs := [cmdStep] } =
      some (0xBFC00004, ⟨0, 0xBFC00000⟩, none) := by decide
theorem test_with_fetch_word_runs_the_word :
    see (·.reg 1) (State.reset.withFetchWord 32 0x3C011234) = some 0x12340000 := by decide
theorem test_start_without_bios :
    see (fun t => (t.run, t.events, t.fault)) { State.reset with platform := short 0, inputs := [cmdStart] } =
      some (.stopped, [.cannotStart], none) := by decide
theorem test_start_with_bios : see (·.run) { State.reset with inputs := [cmdStart] } = some .running := by decide
theorem test_pause_and_start_together :
    see (·.run) (withCommand ⟨none, true, true, true⟩ (pend 0 [])) = some .stopped := by decide
theorem test_step_while_running_is_ignored :
    see (·.pc) (withCommand cmdStep (pend 0 [])) = some 0xBFC00004 := by decide
theorem test_step_without_bios :
    see (fun t => (t.fault, t.pc, t.latch)) { State.reset with platform := short 0, inputs := [cmdStep] } =
      some (some (.unmappedRead 0xBFC00000 .bios), 0xBFC00000, ⟨0, 0⟩) := by decide
theorem test_reset_while_running :
    see (fun t => (t.run, t.pc, t.latch)) (withCommand (cmdReset (short 8) []) (pend 0x24210001 [])) =
      some (.stopped, 0xBFC00000, ⟨0, 0⟩) := by decide

/-! ## Witnesses: for each statement with hypotheses, states and operands that meet them, at the edges of each clause -/

theorem next_of_see {α : Type} {f : State → α} {s : State} {v : α} (h : see f s = some v) :
    ∃ t, step s = .next t ∧ f t = v := by
  unfold see after at h
  split at h
  · exact ⟨_, ‹_›, by simpa using h⟩
  · cases h
  · cases h

/-- A base register holding 0x1F800000, the value 0xDEADBEEF in r2. -/
def atDevices : State := pend 0 [(1, 0x1F800000), (2, 0xDEADBEEF)]

/-- P4: a J at 0xBFC00000 is pending, its delay slot is about to be fetched. -/
def jumping : State := onRom [0x0BF00004, 0x24210001, 0xAC010000, 0x00000000, 0x34220100]

/-- P8: the word after the first J is a second J. -/
def jumpingTwice : State :=
  { pend 0x0BF00008 [] with mem := (((rom [0x0BF00008, 0x0BF0000C]).writeWord 0xBFC00020 0x24210001).writeWord
      0xBFC00030 0x24210004) }

/-- P13 before its third cycle: the fetch will run off the end of the image. -/
def pastTheEnd : State :=
  { pend 0x24210001 [] with
    platform := short 8, pc := 0xBFC00008, latch := ⟨0x24210001, 0xBFC00004⟩, mem := rom [0x24010001, 0x24210001] }

/-- A Stopped engine with a command pending. -/
def stopped (c : HostInput) : State := { State.reset with inputs := [c] }

theorem not_reset (s : State) (h : (s.pending.reset).isNone = true) : ¬ ResetDue s := by
  rintro ⟨b, hb⟩
  unfold HostInput.select at hb
  split at hb
  · simp_all
  · split at hb
    · cases hb
    · split at hb
      · cases hb
      · split at hb <;> cases hb

theorem inv_of_running_program : Inv jumping :=
  ⟨by decide, by decide, by decide, by decide, .inr (by decide), nofun⟩

theorem inv_of_a_fault_record : Inv { pastTheEnd with fault := some (.unmappedRead 0xBFC00008 .bios), run := .stopped } :=
  ⟨by decide, by decide, by decide, by decide, .inr (by decide), by
    intro f h
    obtain rfl : FatalFault.unmappedRead 0xBFC00008 .bios = f := Option.some.inj h
    exact ⟨by decide, by decide, rfl⟩⟩

theorem witness_DecodeReadsExactlyTheUsedBits :
    decodeWord 0x3FE5ABCD = .ok (.lui 5 0xABCD) ∧ (0x3FE5ABCD : Word) &&& usedBits (.lui 5 0xABCD) = encode (.lui 5 0xABCD) ∧
    (0x408867FF : Word) &&& usedBits (.mtc0 8 12) = encode (.mtc0 8 12) := by decide

theorem witness_IllegalWordsAreRejectedByName :
    (fields 0x04000000).opcode = 0x01 ∧ (fields 0xFFFFFFFF).opcode = 0x3F ∧
    ((fields 0x00000001).opcode = 0x00 ∧ (fields 0x00000001).funct = 0x01) ∧
    ((fields 0x40086000).opcode = 0x10 ∧ (fields 0x40086000).rs = 0) := by decide

theorem witness_LuiLoadsTheUpperHalf : (0x3FE5ABCD : Word) &&& 0xFC000000 = 0x3C000000 := by decide
theorem witness_OriOrsTheZeroExtendedImmediate : (0x34028000 : Word) &&& 0xFC000000 = 0x34000000 := by decide
theorem witness_AddiuAddsTheSignExtendedImmediate : (0x24228000 : Word) &&& 0xFC000000 = 0x24000000 := by decide
theorem witness_OrOrsTwoRegisters : (0x00221FE5 : Word) &&& 0xFC00003F = 0x00000025 := by decide
theorem witness_SllShiftsLeft : (0x03E21900 : Word) &&& 0xFC00003F = 0x00000000 := by decide

/-- The first and the last word of the MEMCTL range, and the RAM-size address. -/
theorem witness_SwToAStubDeviceIsAccepted :
    (∀ p ∈ ([(0x1000, 0x1F801000), (0x1020, 0x1F801020)] : List (Imm16 × Word)),
      p.2.toNat = ((atDevices.reg 1).toNat + (if p.1.toNat < 0x8000 then p.1.toNat else p.1.toNat + 0xFFFF0000)) % 2 ^ 32 ∧
      p.2.toNat % 4 = 0 ∧ atDevices.platform.memctl.base.toNat ≤ p.2.toNat ∧
      p.2.toNat < atDevices.platform.memctl.base.toNat + atDevices.platform.memctl.len) ∧
    ((0x1F801060 : Word).toNat = ((atDevices.reg 1).toNat + (0x1060 : Imm16).toNat) % 2 ^ 32 ∧
      (0x1F801060 : Word).toNat % 4 = 0 ∧
      ¬ (atDevices.platform.memctl.base.toNat ≤ (0x1F801060 : Word).toNat ∧
          (0x1F801060 : Word).toNat < atDevices.platform.memctl.base.toNat + atDevices.platform.memctl.len)) := by
  simp only [List.forall_mem_cons, List.not_mem_nil, false_implies, implies_true,
    show atDevices.platform.memctl = ⟨0x1F801000, 36⟩ from rfl, show atDevices.reg 1 = 0x1F800000 by decide]
  decide

/-- A misaligned address; the words beside the two targets; an address below the base register (a negative displacement). -/
theorem witness_SwElsewhereTakesAFault :
    ((0x1F801061 : Word).toNat = ((atDevices.reg 1).toNat + (0x1061 : Imm16).toNat) % 2 ^ 32 ∧
      (0x1F801061 : Word).toNat % 4 ≠ 0) ∧
    ∀ p ∈ ([(0x0FFC, 0x1F800FFC), (0x1024, 0x1F801024), (0x1064, 0x1F801064), (0xFFFC, 0x1F7FFFFC)] : List (Imm16 × Word)),
      p.2.toNat = ((atDevices.reg 1).toNat + (if p.1.toNat < 0x8000 then p.1.toNat else p.1.toNat + 0xFFFF0000)) % 2 ^ 32 ∧
      p.2.toNat % 4 = 0 ∧ p.2 ≠ 0x1F801060 ∧
      ¬ (atDevices.platform.memctl.base.toNat ≤ p.2.toNat ∧
          p.2.toNat < atDevices.platform.memctl.base.toNat + atDevices.platform.memctl.len) := by
  simp only [List.forall_mem_cons, List.not_mem_nil, false_implies, implies_true,
    show atDevices.platform.memctl = ⟨0x1F801000, 36⟩ from rfl, show atDevices.reg 1 = 0x1F800000 by decide]
  decide

theorem witness_AssembledJumpLandsAtItsAddress :
    (0xBFFFFFFC : Word).toNat % 4 = 0 ∧ jumping.pc.toNat / 2 ^ 28 = (0xBFFFFFFC : Word).toNat / 2 ^ 28 := by decide

theorem witness_BneOfEqualsDoesNothing : (pend 0 [(1, 3), (2, 3)]).reg 1 = (pend 0 [(1, 3), (2, 3)]).reg 2 := by decide
theorem witness_BneOfUnequalsTakesAFault : (pend 0 [(1, 3), (2, 4)]).reg 1 ≠ (pend 0 [(1, 3), (2, 4)]).reg 2 := by decide

theorem witness_MtcZeroWritesTheStatusRegister :
    ((12 : RegIdx) = 12) ∧ ∀ rd ∈ ([0, 11, 13, 31] : List RegIdx), rd ≠ 12 := by decide

/-- A store that signals, and an instruction that leaves register 5 alone. -/
theorem witness_EachInstructionWritesOnlyItsOwn :
    (∃ t, exec (.sw 2 0x1000 1) atDevices = .next t ∧ ¬ SameSignals atDevices t) ∧
    (∃ t, exec (.bne 1 2 0) atDevices = .next t ∧ ¬ SameSignals atDevices t) ∧
    (∃ t, exec (.lui 1 7) atDevices = .next t) ∧ destination (.lui 1 7) ≠ some 5 ∧
    (∀ g, Instr.lui 1 7 ≠ .j g) ∧ (∀ rt, Instr.lui 1 7 ≠ .mtc0 rt 12) := by
  refine ⟨⟨_, rfl, fun h => ?_⟩, ⟨_, rfl, fun h => ?_⟩, ⟨_, rfl⟩, by decide, nofun, nofun⟩
  · exact absurd h.2.2 (by decide)
  · exact absurd h.1 (by decide)

/-- A misaligned address; the words just outside the BIOS range; its first and its last word. -/
theorem witness_BusReadReachesTheBiosOnly :
    (0xBFC00002 : Word).toNat % 4 ≠ 0 ∧
    (∀ a ∈ ([0xBFBFFFFC, 0xBFC80000] : List Word), a.toNat % 4 = 0 ∧
      ¬ (jumping.platform.bios.base.toNat ≤ a.toNat ∧
          a.toNat < jumping.platform.bios.base.toNat + jumping.platform.bios.len)) ∧
    (∀ a ∈ ([0xBFC00000, 0xBFC7FFFC] : List Word), a.toNat % 4 = 0 ∧ jumping.platform.bios.base.toNat ≤ a.toNat ∧
      a.toNat < jumping.platform.bios.base.toNat + jumping.platform.bios.len) := by
  simp only [List.forall_mem_cons, List.not_mem_nil, false_implies, implies_true,
    show jumping.platform.bios = ⟨0xBFC00000, 0x80000⟩ from rfl]
  decide

theorem witness_BusWriteProbesInOrder :
    (0x1F801062 : Word).toNat % 4 ≠ 0 ∧
    (∀ a ∈ ([0x1F801000, 0x1F801020] : List Word), a.toNat % 4 = 0 ∧ atDevices.platform.memctl.base.toNat ≤ a.toNat ∧
      a.toNat < atDevices.platform.memctl.base.toNat + atDevices.platform.memctl.len) ∧
    (∀ a ∈ ([0x1F800FFC, 0x1F801024, 0x1F801060, 0xBFC00000] : List Word), a.toNat % 4 = 0 ∧
      ¬ (atDevices.platform.memctl.base.toNat ≤ a.toNat ∧
          a.toNat < atDevices.platform.memctl.base.toNat + atDevices.platform.memctl.len)) := by
  simp only [List.forall_mem_cons, List.not_mem_nil, false_implies, implies_true,
    show atDevices.platform.memctl = ⟨0x1F801000, 36⟩ from rfl]
  decide

theorem witness_MisalignmentIsReportedFirst :
    (0x00001001 : Word).toNat % 4 ≠ 0 ∧ busRead32 jumping 0xBFC00010 = .ok 0x34220100 ∧
    (∃ t, busWrite32 atDevices 0x1F801000 7 = .ok t) := ⟨by decide, by decide, ⟨_, rfl⟩⟩

theorem witness_FetchIsNeverMisaligned : ∃ s, Inv s := ⟨jumping, inv_of_running_program⟩

theorem witness_FetchFaultLeavesTheLatch :
    CycleDue pastTheEnd ∧ busRead32 pastTheEnd pastTheEnd.pc = .error (.unmappedRead 0xBFC00008 .bios) := by decide

/-- A store, a BNE and a word with no handler: each raises in step 6. -/
theorem witness_ExecuteFaultConsumesTheInstruction :
    ∀ p ∈ ([(pend 0xAC210000 [(1, 0x1001)], .unalignedAccess 0x1001),
            (pend 0x1422FFFD [(1, 3), (2, 4)], .unhandledInstruction 0xBFC00000 0x05 none),
            (pend 0x8C220000 [], .unhandledInstruction 0xBFC00000 0x23 none)] : List (State × FatalFault)),
      CycleDue p.1 ∧ busRead32 p.1 p.1.pc = .ok 0 ∧
      see (·.events) p.1 = some ((atExecute p.1 0).events ++ [.fault p.2]) := by decide

theorem witness_IllegalWordTakesUnhandledInstruction :
    ∀ p ∈ ([(0x8C220000, .primary 0x23), (0x0000000C, .special 0x0C), (0x40004000, .cop0 0)] : List (Word × Miss)),
      CycleDue (pend p.1 []) ∧ busRead32 (pend p.1 []) (pend p.1 []).pc = .ok 0 ∧
      decodeWord (pend p.1 []).latch.word = .error p.2 := by decide

/-- A faulting step of an engine that has a record already. -/
theorem witness_FirstFaultIsKept :
    let s : State := { pend 0x8C220000 [] with fault := some (.unalignedAccess 1) }
    (∃ t, step s = .next t) ∧ s.fault = some (.unalignedAccess 1) ∧ ¬ ResetDue s :=
  ⟨⟨_, rfl⟩, rfl, not_reset _ rfl⟩

theorem witness_AtMostOneSignalPerStep :
    ∃ t, step atDevices = .next t := ⟨_, rfl⟩

/-- A word that decodes, a word that does not, and a fetch that raises. -/
theorem witness_StepRunsTheDecodedInstruction :
    (CycleDue jumping ∧ busRead32 jumping jumping.pc = .ok 0x24210001 ∧ decodeWord jumping.latch.word = .ok (.j 0x3F00004)) ∧
    (CycleDue (stopped cmdStep) ∧ busRead32 (stopped cmdStep) (stopped cmdStep).pc = .ok 0 ∧
      decodeWord (stopped cmdStep).latch.word = .ok (.sll 0 0 0)) ∧
    (decodeWord (pend 0x40004000 []).latch.word = .error (.cop0 0)) ∧
    busRead32 pastTheEnd pastTheEnd.pc = .error (.unmappedRead 0xBFC00008 .bios) := by decide

theorem witness_FetchedWordExecutesNext :
    CycleDue jumping ∧ busRead32 jumping jumping.pc = .ok 0x24210001 ∧
    see (fun t => (decide (CycleDue t), busRead32 t t.pc)) jumping = some (true, .ok 0x34220100) ∧
    decodeWord 0x24210001 = .ok (.addiu 1 1 1) := by decide

theorem witness_PcAdvancesByFour :
    (CycleDue jumping ∧ busRead32 jumping jumping.pc = .ok 0x24210001 ∧ decodeWord jumping.latch.word = .ok (.j 0x3F00004)) ∧
    (CycleDue atDevices ∧ busRead32 atDevices atDevices.pc = .ok 0 ∧ decodeWord atDevices.latch.word = .ok (.sll 0 0 0)) ∧
    ((after (step jumping)).isSome = true ∧ (after (step atDevices)).isSome = true) := by decide

theorem witness_RegisterZeroIsUnobservable : CycleDue (pend 0x00000825 [(0, 5)]) := by decide

/-- P6: a write to register 0; an instruction that does not write it; a fetch that raises while a write to register 0 is
pending; a Stopped engine. -/
theorem witness_RegisterZeroIsTransient :
    (CycleDue (pend 0x24000005 []) ∧ busRead32 (pend 0x24000005 []) (pend 0x24000005 []).pc = .ok 0 ∧
      decodeWord (pend 0x24000005 []).latch.word = .ok (.addiu 0 0 5) ∧
      (after (exec (.addiu 0 0 5) (atExecute (pend 0x24000005 []) 0))).isSome = true) ∧
    (CycleDue (pend 0x00000825 [(0, 5)]) ∧ decodeWord (pend 0x00000825 [(0, 5)]).latch.word = .ok (.or 1 0 0) ∧
      destination (.or 1 0 0) ≠ some 0 ∧ (after (step (pend 0x00000825 [(0, 5)]))).isSome = true) ∧
    (let s : State := { pastTheEnd with latch := ⟨0x24000005, 0xBFC00004⟩ }
     CycleDue s ∧ busRead32 s s.pc = .error (.unmappedRead 0xBFC00008 .bios) ∧
      decodeWord s.latch.word = .ok (.addiu 0 0 5) ∧ (after (step s)).isSome = true) ∧
    ¬ CycleDue { State.reset with x := State.reset.x.set 0 5 } := by decide

theorem witness_JumpHasOneDelaySlot :
    jumping.run = .running ∧ jumping.inputs = [] ∧ decodeWord jumping.latch.word = .ok (.j 0x3F00004) ∧
    busRead32 jumping jumping.pc = .ok 0x24210001 ∧
    (0xBFC00010 : Word).toNat =
      (jumping.pc.toNat + 4) % 2 ^ 32 / 2 ^ 28 * 2 ^ 28 + (0x3F00004 : BitVec 26).toNat * 4 ∧
    busRead32 jumping 0xBFC00010 = .ok 0x34220100 ∧ decodeWord 0x24210001 = .ok (.addiu 1 1 1) := by decide

theorem witness_JumpInADelaySlot :
    jumpingTwice.run = .running ∧ jumpingTwice.inputs = [] ∧
    decodeWord jumpingTwice.latch.word = .ok (.j 0x3F00008) ∧ busRead32 jumpingTwice jumpingTwice.pc = .ok 0x0BF0000C ∧
    decodeWord 0x0BF0000C = .ok (.j 0x3F0000C) ∧
    (0xBFC00020 : Word).toNat =
      (jumpingTwice.pc.toNat + 4) % 2 ^ 32 / 2 ^ 28 * 2 ^ 28 + (0x3F00008 : BitVec 26).toNat * 4 ∧
    (0xBFC00030 : Word).toNat =
      ((0xBFC00020 : Word).toNat + 4) % 2 ^ 32 / 2 ^ 28 * 2 ^ 28 + (0x3F0000C : BitVec 26).toNat * 4 ∧
    busRead32 jumpingTwice 0xBFC00020 = .ok 0x24210001 ∧ busRead32 jumpingTwice 0xBFC00030 = .ok 0x24210004 := by decide

theorem witness_FirstCycleAfterReset :
    CycleDue (stopped cmdStep) ∧ (stopped cmdStep).platform.wellFormed = true ∧ 0 < (stopped cmdStep).platform.bios.len ∧
    (stopped cmdStep).latch = ⟨0, 0⟩ ∧ (stopped cmdStep).pc = (stopped cmdStep).platform.bios.base := by decide

theorem witness_ImageNeverChanges : (∃ t, step jumping = .next t) ∧ ¬ ResetDue jumping := ⟨⟨_, rfl⟩, not_reset _ rfl⟩

/-- A NOP-labelled word that writes register 3. -/
theorem witness_NopLabelChangesNothing :
    let s := pend 0x00001800 [(3, 9)]
    CycleDue s ∧ busRead32 s s.pc = .ok 0 ∧ s.latch.word = 0x00001800 ∧ isNop 0x00001800 = true ∧
      (after (step s)).isSome = true := by decide

/-- An instruction, a miss of each table, and a coprocessor-0 word with another selector, the event on; and the event off. -/
theorem witness_TraceEventOfACycle :
    decodeWord (stopped cmdStep).latch.word = .ok (.sll 0 0 0) ∧
    (let s := fun w : Word => { pend w [] with platform := defaultPlatform }
     (CycleDue (s 0x8C220000) ∧ decodeWord (s 0x8C220000).latch.word = .error (.primary 0x23) ∧
       (after (step (s 0x8C220000))).isSome = true) ∧
     (CycleDue (s 0x0000000C) ∧ decodeWord (s 0x0000000C).latch.word = .error (.special 0x0C) ∧
       (after (step (s 0x0000000C))).isSome = true) ∧
     (CycleDue (s 0x40004000) ∧ decodeWord (s 0x40004000).latch.word = .error (.cop0 0) ∧
       (after (step (s 0x40004000))).isSome = true)) ∧
    (CycleDue (stopped cmdStep) ∧ (stopped cmdStep).platform.trace = true ∧ (after (step (stopped cmdStep))).isSome = true) ∧
    (CycleDue atDevices ∧ atDevices.platform.trace = false ∧ (after (step atDevices)).isSome = true) := by decide

/-- Two states that differ in all four. -/
theorem witness_UnreadStateIsUnobservable :
    let t : State := { jumping with
      sr := 7, fault := some (.unalignedAccess 1), events := [.cannotStart], platform := defaultPlatform }
    eraseUnread jumping = eraseUnread t ∧ jumping.sr ≠ t.sr ∧ jumping.fault ≠ t.fault ∧ jumping.events ≠ t.events ∧
      jumping.platform ≠ t.platform := by decide

theorem witness_StartNeedsABios :
    ((stopped cmdStart).pending.select = .start ∧ (stopped cmdStart).run = .stopped ∧
      0 < (stopped cmdStart).platform.bios.len) ∧
    (let s : State := { stopped cmdStart with platform := short 0 }
     s.pending.select = .start ∧ s.run = .stopped ∧ s.platform.bios.len = 0) ∧
    ((withCommand cmdStart jumping).pending.select = .start ∧ (withCommand cmdStart jumping).run = .running) := by decide

theorem witness_PauseStopsAtTheBoundary : (withCommand cmdPause jumping).pending.select = .pause := by decide

theorem witness_SingleStepIsOneCycle :
    ((stopped cmdStep).pending.select = .step ∧ (stopped cmdStep).run = .stopped) ∧
    (let s : State := { stopped cmdStep with platform := short 0 }
     s.pending.select = .step ∧ s.run = .stopped ∧ s.platform.bios.len = 0 ∧ s.fault = none ∧ s.pc.toNat % 4 = 0) ∧
    ((withCommand cmdStep jumping).pending.select = .step ∧ (withCommand cmdStep jumping).run = .running) := by decide

/-- Two different sets of commands of which the same one is served. -/
theorem witness_CommandPriority :
    (⟨none, true, true, true⟩ : HostInput).select = cmdPause.select ∧ (⟨none, true, true, true⟩ : HostInput) ≠ cmdPause := by
  decide

theorem witness_StoppedRetainsAllState :
    State.reset.run = .stopped ∧ State.reset.pending.select = .none := by decide

theorem witness_RunStateTransitions :
    ((stopped cmdStart).run = .stopped ∧ see (·.run) (stopped cmdStart) = some .running) ∧
    ((withCommand cmdPause jumping).run = .running ∧ see (·.run) (withCommand cmdPause jumping) = some .stopped) ∧
    (pastTheEnd.run = .running ∧ see (·.run) pastTheEnd = some .stopped) := by decide

/-- A state with a legal `reset` pending. -/
theorem witness_EveryStepAnswers :
    ∀ b, (stopped (cmdReset quiet (rom [0x3C011234]))).pending.select = .reset b → b.wellFormed = true := by
  intro b h
  obtain rfl : (⟨quiet, rom [0x3C011234]⟩ : Boot) = b := Command.reset.inj h
  decide

theorem witness_ResetCommandReinitialises :
    (withCommand (cmdReset (short 8) (rom [0x3C011234])) jumping).pending.select =
      .reset ⟨short 8, rom [0x3C011234]⟩ ∧ (⟨short 8, rom [0x3C011234]⟩ : Boot).wellFormed = true := by decide

theorem witness_ResetRefusesAnIllegalConfiguration :
    (withCommand (cmdReset (short 6) []) jumping).pending.select = .reset ⟨short 6, []⟩ ∧
    (short 6).wellFormed = false := by decide

/-- A running program, and a Stopped engine with a fault record. -/
theorem witness_StepKeepsTheInvariant :
    (∃ s t, Inv s ∧ s.run = .running ∧ step s = .next t) ∧ (∃ s t, Inv s ∧ s.fault ≠ none ∧ step s = .next t) :=
  ⟨⟨jumping, _, inv_of_running_program, rfl, rfl⟩,
   ⟨_, _, inv_of_a_fault_record, by decide, rfl⟩⟩

end Sys2Proof.Tests
end

/-! # The invariant of the machine, and the reset it refuses (00_scope.md R5) -/

namespace Sys2Proof.Machine

/-! ## What an instruction does to the whole state, said once -/

/-- Everything an instruction can do to the state: one constructor for each way a handler can end. -/
inductive ExecEffect (s : State) : Instr → State → Prop where
  /-- One of the five register instructions writes its destination (10_state.md R14). -/
  | writeReg {i : Instr} {r : RegIdx} (v : Word) (hd : destination i = some r) : ExecEffect s i (s.setReg r v)
  /-- SW of a mapped address sends the diagnostic (20_memory.md R38). -/
  | storeAccepted {rt rs : RegIdx} {imm : Imm16} (sev : Severity) :
      ExecEffect s (.sw rt imm rs) (s.emit (.unimplementedStore sev (effectiveAddress s rs imm) (s.reg rt)))
  /-- SW takes the fault the bus raises (20_memory.md R37). -/
  | storeFault {rt rs : RegIdx} {imm : Imm16} {f : FatalFault}
      (hf : busWrite32 s (effectiveAddress s rs imm) (s.reg rt) = .error f) :
      ExecEffect s (.sw rt imm rs) (takeFault f s)
  /-- J writes `pc` (44_control_transfer.md R125). -/
  | jump (g : BitVec 26) : ExecEffect s (.j g) (s.setPc (jumpAddress s.pc g))
  /-- BNE of equal registers (R127). -/
  | bneEqual {rs rt : RegIdx} {imm : Imm16} (h : s.reg rs = s.reg rt) : ExecEffect s (.bne rs rt imm) s
  /-- BNE of unequal registers (R127). -/
  | bneFault {rs rt : RegIdx} {imm : Imm16} (h : s.reg rs ≠ s.reg rt) :
      ExecEffect s (.bne rs rt imm) (takeFault (.unhandledInstruction s.instr.addr 0x05 none) s)
  /-- MTC0 of the status register (45_system_cop0.md R135). -/
  | writeSr {rt : RegIdx} : ExecEffect s (.mtc0 rt statusRegister) (s.setSr (s.reg rt))
  /-- MTC0 of any other number (R135). -/
  | mtc0Ignored {rt rd : RegIdx} (h : rd ≠ statusRegister) : ExecEffect s (.mtc0 rt rd) s

/-- The state an instruction answers is one of those effects. -/
theorem execEffect_of_exec {i : Instr} {s t : State} (h : exec i s = .next t) : ExecEffect s i t := by
  cases i with
  | lui rt imm => cases h; exact .writeReg _ rfl
  | ori rt rs imm => cases h; exact .writeReg _ rfl
  | addiu rt rs imm => cases h; exact .writeReg _ rfl
  | or rd rs rt => cases h; exact .writeReg _ rfl
  | sll rd rt shamt => cases h; exact .writeReg _ rfl
  | j g => cases h; exact .jump g
  | sw rt imm rs =>
    obtain ⟨f, hsw, hf⟩ | ⟨sev, hsw⟩ := execSw_cases rt imm rs s
    · cases hsw.symm.trans h
      exact .storeFault hf
    · cases hsw.symm.trans h
      exact .storeAccepted sev
  | bne rs rt imm =>
    obtain ⟨heq, hb⟩ | ⟨hne, hb⟩ := execBne_cases rs rt imm s
    · cases hb.symm.trans h
      exact .bneEqual heq
    · cases hb.symm.trans h
      exact .bneFault hne
  | mtc0 rt rd =>
    obtain rfl := Host.Outcome.next.inj h
    by_cases hrd : rd = statusRegister
    · subst hrd
      rw [if_pos rfl]
      exact .writeSr
    · rw [if_neg hrd]
      exact .mtc0Ignored hrd

/-- Step 6 executes the decoded instruction, or takes the fault of a word that selects none. -/
theorem execute_cases {s t : State} (h : execute s = .next t) :
    (∃ i, decodeWord s.instr.word = .ok i ∧ ExecEffect s i t) ∨
    (∃ m, decodeWord s.instr.word = .error m ∧ t = takeFault (missFault s.instr.addr m) s) := by
  unfold execute at h
  cases hd : decodeWord s.instr.word with
  | ok i => rw [hd] at h; exact .inl ⟨i, rfl, execEffect_of_exec h⟩
  | error m => rw [hd] at h; exact .inr ⟨m, rfl, (Host.Outcome.next.inj h).symm⟩

/-! ## The opcode behind an UnhandledInstruction record (60_exceptions.md R144) -/

/-- The record of a rejected word carries that word's opcode. -/
theorem opcode_missFault {w : Word} {m : Miss} (a : Word) (h : decodeWord w = .error m) :
    (missFault a m).opcode? = some (fields w).opcode := by
  rw [decodeWord_eq] at h
  split_ifs at h with h0 _ _ _ _ _ _ _ h10 _ _
  all_goals cases h
  · exact congrArg some h0.symm
  · exact congrArg some h10.symm
  · rfl

/-- A word that decodes to BNE has BNE's opcode. -/
theorem opcode_of_decodeWord_bne {w : Word} {rs rt : RegIdx} {imm : Imm16} (h : decodeWord w = .ok (.bne rs rt imm)) :
    (fields w).opcode = 0x05 := by
  rw [decodeWord_eq] at h
  split_ifs at h with _ _ _ _ h5
  all_goals cases h
  exact h5

/-- The empty latch decodes to an SLL of register 0 (10_state.md R24). -/
theorem decodeWord_emptyLatch : decodeWord emptyLatch.word = .ok (.sll 0 0 0) := by decide

/-! ## `pc` is a multiple of 4 (10_state.md R18) -/

theorem jumpAddress_aligned (p : Word) (g : BitVec 26) : (jumpAddress p g).toNat % 4 = 0 := by
  change (p.extractLsb' 28 4 ++ g ++ 0#2 : BitVec (4 + 26 + 2)).toNat % 4 = 0
  rw [BitVec.toNat_append]
  simp [Nat.shiftLeft_eq]

theorem add_four_aligned {a : Word} (h : a.toNat % 4 = 0) : (a + 4).toNat % 4 = 0 := by
  change (a.toNat + 4) % 2 ^ 32 % 4 = 0
  omega

/-! ## Genuine words and genuine records: both depend on the configuration and the image alone -/

/-- A word and its address are the reset content of the latch, or the image's own (10_state.md R17).
`LatchGenuine` says it of the latch; during a cycle it holds of the instruction taken from it as well. -/
def WordGenuine (s : State) (l : Latch) : Prop := l = emptyLatch ∨ busRead32 s l.addr = .ok l.word

theorem WordGenuine.congr {s t : State} {l : Latch} (h : WordGenuine s l) (hp : t.platform = s.platform)
    (hm : t.mem = s.mem) : WordGenuine t l := by
  rwa [WordGenuine, busRead32_congr (congrArg Platform.bios hp) hm]

/-- A genuine word that does not decode to the SLL of the empty latch is the image's. -/
theorem WordGenuine.read_of_decodeWord_ne {s : State} {l : Latch} (h : WordGenuine s l)
    (hd : decodeWord l.word ≠ .ok (.sll 0 0 0)) : busRead32 s l.addr = .ok l.word :=
  h.resolve_left fun he => hd (he ▸ decodeWord_emptyLatch)

theorem FaultGenuine.congr {s t : State} {f : FatalFault} (h : FaultGenuine s f) (hp : t.platform = s.platform)
    (hm : t.mem = s.mem) : FaultGenuine t f := by
  cases f with
  | unalignedAccess a => exact h
  | unmappedRead a d => rwa [FaultGenuine, hp]
  | unmappedWrite a v => rwa [FaultGenuine, hp]
  | unhandledInstruction a op sub => rwa [FaultGenuine, busRead32_congr (congrArg Platform.bios hp) hm]

/-- A fault of the read path is genuine (60_exceptions.md R141, R142). -/
theorem faultGenuine_of_busRead32 {s : State} {a : Word} {f : FatalFault} (h : busRead32 s a = .error f) :
    FaultGenuine s f := by
  obtain ⟨ha, rfl⟩ | ⟨ha, hr, rfl⟩ := busRead32_error.mp h
  · exact (aligned_eq_false a).mp ha
  · exact ⟨(aligned_eq_true a).mp ha, hr, rfl⟩

/-- A fault of the write path is genuine (R141, R143). -/
theorem faultGenuine_of_busWrite32 {s : State} {a v : Word} {f : FatalFault} (h : busWrite32 s a v = .error f) :
    FaultGenuine s f := by
  obtain ⟨ha, hw⟩ | ⟨_, _, hw⟩ | ⟨_, _, _, hw⟩ | ⟨ha, hr, hne, hw⟩ := busWrite32_cases s a v <;> cases hw.symm.trans h
  · exact (aligned_eq_false a).mp ha
  · exact ⟨(aligned_eq_true a).mp ha, hr, hne⟩

/-- The record of a genuine word that selects no instruction is genuine (R144 (a) to (c)). -/
theorem faultGenuine_missFault {s : State} {l : Latch} {m : Miss} (hl : WordGenuine s l)
    (hd : decodeWord l.word = .error m) : FaultGenuine s (missFault l.addr m) := by
  have hread : busRead32 s l.addr = .ok l.word := hl.read_of_decodeWord_ne (by simp [hd])
  have hop := opcode_missFault l.addr hd
  cases m with
  | primary o => obtain rfl := Option.some.inj hop; exact ⟨_, hread, rfl, .inl ⟨hd, rfl⟩⟩
  | special g => exact ⟨_, hread, (Option.some.inj hop).symm, .inr (.inl ⟨rfl, g, hd, rfl⟩)⟩
  | cop0 q => exact ⟨_, hread, (Option.some.inj hop).symm, .inr (.inr (.inl ⟨rfl, q, hd, rfl⟩))⟩

/-- The record of a genuine word that is a BNE is genuine (R144 (d)). -/
theorem faultGenuine_bne {s : State} {l : Latch} {rs rt : RegIdx} {imm : Imm16} (hl : WordGenuine s l)
    (hd : decodeWord l.word = .ok (.bne rs rt imm)) : FaultGenuine s (.unhandledInstruction l.addr 0x05 none) :=
  ⟨l.word, hl.read_of_decodeWord_ne (by simp [hd]), opcode_of_decodeWord_bne hd,
    .inr (.inr (.inr ⟨rs, rt, imm, hd, rfl, rfl⟩))⟩

/-! ## The invariant inside a cycle -/

/-- `Inv` as it holds between any two of the six steps of a cycle (40_cycle_and_dispatch.md R84): the instruction taken in
step 3 need not be gone, but it is genuine. -/
structure CycleInv (s : State) : Prop where
  platform : s.platform.wellFormed = true
  image : Memory.wf s.mem = true
  pcAligned : s.pc.toNat % 4 = 0
  instr : WordGenuine s s.instr
  latch : WordGenuine s s.latch
  fault : ∀ f, s.fault = some f → FaultGenuine s f

/-- Between cycles the invariant is the one that holds inside them, with the instruction gone. -/
theorem inv_iff {s : State} : Inv s ↔ CycleInv s ∧ s.instr = emptyLatch where
  mp h := ⟨⟨h.platform, h.image, h.pcAligned, .inl h.instrGone, h.latch, h.fault⟩, h.instrGone⟩
  mpr := fun ⟨h, hi⟩ => ⟨h.platform, h.image, h.pcAligned, hi, h.latch, h.fault⟩

namespace CycleInv

variable {s t : State}

/-- A change that leaves the configuration and the image alone keeps the invariant when the new `pc`, words and record do. -/
theorem update (h : CycleInv s) (hp : t.platform = s.platform) (hm : t.mem = s.mem) (hpc : t.pc.toNat % 4 = 0)
    (hi : WordGenuine s t.instr) (hl : WordGenuine s t.latch) (hf : ∀ f, t.fault = some f → FaultGenuine s f) :
    CycleInv t where
  platform := hp ▸ h.platform
  image := hm ▸ h.image
  pcAligned := hpc
  instr := hi.congr hp hm
  latch := hl.congr hp hm
  fault f hft := (hf f hft).congr hp hm

theorem setReg (h : CycleInv s) (r : RegIdx) (v : Word) : CycleInv (s.setReg r v) :=
  h.update rfl rfl h.pcAligned h.instr h.latch h.fault

theorem setSr (h : CycleInv s) (v : Word) : CycleInv (s.setSr v) :=
  h.update rfl rfl h.pcAligned h.instr h.latch h.fault

theorem setPc (h : CycleInv s) {v : Word} (hv : v.toNat % 4 = 0) : CycleInv (s.setPc v) :=
  h.update rfl rfl hv h.instr h.latch h.fault

theorem emit (h : CycleInv s) (e : Event) : CycleInv (s.emit e) :=
  h.update rfl rfl h.pcAligned h.instr h.latch h.fault

theorem takeInput (h : CycleInv s) : CycleInv s.takeInput :=
  h.update rfl rfl h.pcAligned h.instr h.latch h.fault

theorem setRun (h : CycleInv s) (r : Run) : CycleInv { s with run := r } :=
  h.update rfl rfl h.pcAligned h.instr h.latch h.fault

/-- Taking a genuine fault (60_exceptions.md R148): the record is the old one, or the new one where there was none. -/
theorem takeFault (h : CycleInv s) {f : FatalFault} (hf : FaultGenuine s f) : CycleInv (takeFault f s) := by
  refine h.update rfl rfl h.pcAligned h.instr h.latch fun g hg => ?_
  obtain hold | ⟨-, hnew⟩ := Option.or_eq_some_iff.mp hg
  · exact h.fault g hold
  · exact Option.some.inj hnew ▸ hf

/-- Steps 1 to 3: the instruction taken is the one that was pending. -/
theorem beginCycle (h : CycleInv s) : CycleInv (beginCycle s) :=
  h.update rfl rfl h.pcAligned h.latch h.latch h.fault

/-- Steps 4 and 5: the word latched is the one the fetch at `pc` has returned. -/
theorem advance (h : CycleInv s) {w : Word} (hw : busRead32 s s.pc = .ok w) : CycleInv (advance w s) :=
  h.update rfl rfl (add_four_aligned h.pcAligned) h.instr (.inr hw) h.fault

/-- An instruction, executed for the word that step 3 took and that decodes to it. -/
theorem execEffect (h : CycleInv s) {i : Instr} (hd : decodeWord s.instr.word = .ok i) (he : ExecEffect s i t) :
    CycleInv t := by
  cases he with
  | writeReg v _ => exact h.setReg _ v
  | storeAccepted sev => exact h.emit _
  | storeFault hf => exact h.takeFault (faultGenuine_of_busWrite32 hf)
  | jump g => exact h.setPc (jumpAddress_aligned s.pc g)
  | bneEqual _ => exact h
  | bneFault _ => exact h.takeFault (faultGenuine_bne h.instr hd)
  | writeSr => exact h.setSr _
  | mtc0Ignored _ => exact h

/-- Step 6. -/
theorem execute (h : CycleInv s) (he : execute s = .next t) : CycleInv t := by
  obtain ⟨i, hd, heff⟩ | ⟨m, hd, rfl⟩ := execute_cases he
  · exact h.execEffect hd heff
  · exact h.takeFault (faultGenuine_missFault h.instr hd)

/-- The end of the cycle: with the instruction gone, the invariant between cycles holds again. -/
theorem inv_clearInstr (h : CycleInv s) : Inv { s with instr := emptyLatch } :=
  inv_iff.mpr ⟨h.update rfl rfl h.pcAligned (.inl rfl) h.latch h.fault, rfl⟩

/-- A whole cycle (40_cycle_and_dispatch.md R84). -/
theorem inv_cycle (h : CycleInv s) (hc : cycle s = .next t) : Inv t := by
  obtain ⟨f, hf, hn⟩ | ⟨w, u, hw, hu, -, hn⟩ := cycle_cases s
  · cases hn.symm.trans hc
    have hf' : FaultGenuine (Machine.beginCycle s) f :=
      faultGenuine_of_busRead32 ((busRead32_beginCycle s s.pc).trans hf)
    exact (h.beginCycle.takeFault hf').inv_clearInstr
  · cases hn.symm.trans hc
    have hw' : busRead32 (Machine.beginCycle s) (Machine.beginCycle s).pc = .ok w :=
      (busRead32_beginCycle s s.pc).trans hw
    exact ((h.beginCycle.advance hw').execute hu).inv_clearInstr

end CycleInv

/-! ## The `reset` command -/

/-- The base of a BIOS range that R5 allows is a multiple of 4. -/
theorem bios_base_aligned {p : Platform} (h : p.wellFormed = true) : p.bios.base.toNat % 4 = 0 := by
  simp only [Platform.wellFormed, Bool.and_eq_true, beq_iff_eq] at h
  obtain ⟨⟨⟨hbase, -⟩, -⟩, -⟩ := h
  exact hbase

/-- A configuration and an image that R5 allows meet the invariant once the machine is reset to them. -/
theorem inv_resetTo {b : Boot} (h : b.wellFormed = true) (s : State) : Inv (resetTo b s) := by
  obtain ⟨hp, hm⟩ := Bool.and_eq_true_iff.mp h
  exact ⟨hp, hm, bios_base_aligned hp, rfl, .inl rfl, nofun⟩

/-- A reset that answers a next state was offered a configuration and an image that R5 allows. -/
theorem serveReset_next {b : Boot} {s t : State} (h : serveReset b s = .next t) :
    b.wellFormed = true ∧ t = resetTo b s := by
  unfold serveReset at h
  split at h
  · next hb => exact ⟨hb, (Host.Outcome.next.inj h).symm⟩
  · cases h

theorem serveReset_of_not_wellFormed {b : Boot} (s : State) (h : b.wellFormed = false) :
    serveReset b s = .fault .illegalConfiguration := by
  simp [serveReset, h]

/-- A step at which a `reset` is pending serves it (40_cycle_and_dispatch.md R87). -/
theorem step_of_reset {s : State} {b : Boot} (h : s.pending.select = .reset b) : step s = serveReset b s.takeInput := by
  simp [step, boundary, serve, h]

/-! ## The obligations -/

/-- Settles O53: every case of `step_cases` keeps the invariant; a cycle does by `CycleInv.inv_cycle`, step by step. -/
theorem stepKeepsTheInvariant : Obligations.StepKeepsTheInvariant := by
  intro s t hInv hst
  obtain ⟨hInv, hgone⟩ := inv_iff.mp hInv
  obtain ⟨b, -, hs⟩ | ⟨-, hs⟩ | ⟨-, -, -, hs⟩ | ⟨-, -, -, hs⟩ | ⟨-, hs⟩ | ⟨-, hs⟩ := step_cases s
  · obtain ⟨hb, rfl⟩ := serveReset_next (hs.symm.trans hst)
    exact inv_resetTo hb _
  · cases hs.symm.trans hst
    exact inv_iff.mpr ⟨hInv.takeInput.setRun .stopped, hgone⟩
  · cases hs.symm.trans hst
    exact inv_iff.mpr ⟨hInv.takeInput.setRun .running, hgone⟩
  · cases hs.symm.trans hst
    exact inv_iff.mpr ⟨hInv.takeInput.emit .cannotStart, hgone⟩
  · cases hs.symm.trans hst
    exact inv_iff.mpr ⟨hInv.takeInput, hgone⟩
  · exact hInv.takeInput.inv_cycle (hs.symm.trans hst)

/-- Settles O50: the step serves the reset, and a boot is well formed only with a configuration that R5 allows. -/
theorem resetRefusesAnIllegalConfiguration : Obligations.ResetRefusesAnIllegalConfiguration := by
  intro s b hsel hplat
  have hb : b.wellFormed = false := by simp [Boot.wellFormed, hplat]
  rw [step_of_reset hsel, serveReset_of_not_wellFormed _ hb]

end Sys2Proof.Machine

/-! # The state: what each instruction, each cycle and each step writes and reads (10_state.md) -/

namespace Sys2Proof.Machine

/-! ## What an instruction leaves unchanged -/

namespace ExecEffect

variable {s t : State} {i : Instr}

/-- Only the destination register changes (10_state.md R14). -/
theorem reg_eq (h : ExecEffect s i t) {q : RegIdx} (hq : destination i ≠ some q) : t.reg q = s.reg q := by
  cases h with
  | writeReg v hd => exact reg_setReg_ne s v fun he => hq (he ▸ hd)
  | _ => rfl

/-- Only J writes `pc` (10_state.md R15). -/
theorem pc_eq (h : ExecEffect s i t) (hj : ∀ g, i ≠ .j g) : t.pc = s.pc := by
  cases h with
  | jump g => exact absurd rfl (hj g)
  | _ => rfl

/-- Only MTC0 of the status register writes `sr` (10_state.md R19). -/
theorem sr_eq (h : ExecEffect s i t) (hm : ∀ rt, i ≠ .mtc0 rt statusRegister) : t.sr = s.sr := by
  cases h with
  | writeSr => exact absurd rfl (hm _)
  | _ => rfl

/-- Only SW and BNE signal anything (60_exceptions.md R147). -/
theorem sameSignals_or (h : ExecEffect s i t) :
    SameSignals s t ∨ (∃ rt imm rs, i = .sw rt imm rs) ∨ (∃ rs rt imm, i = .bne rs rt imm) := by
  cases h with
  | storeAccepted sev => exact .inr (.inl ⟨_, _, _, rfl⟩)
  | storeFault hf => exact .inr (.inl ⟨_, _, _, rfl⟩)
  | bneFault hne => exact .inr (.inr ⟨_, _, _, rfl⟩)
  | _ => exact .inl ⟨rfl, rfl, rfl⟩

end ExecEffect

/-- No instruction touches the background of the state. -/
theorem sameBackground_of_exec {i : Instr} {s t : State} (h : exec i s = .next t) : SameBackground s t := by
  obtain ⟨u, hu, hb⟩ := exec_next i s
  cases hu.symm.trans h
  exact hb

/-- Settles O19: each clause is read off the effects a handler can have. -/
theorem eachInstructionWritesOnlyItsOwn : Obligations.EachInstructionWritesOnlyItsOwn := by
  intro i s t h
  have he : ExecEffect s i t := execEffect_of_exec h
  exact ⟨sameBackground_of_exec h, fun _ => he.reg_eq, he.pc_eq, he.sr_eq, he.sameSignals_or.resolve_left⟩

/-! ## A step that is neither a cycle nor a reset -/

/-- Such a step takes the pending commands, and writes the engine state and the events at most
(40_cycle_and_dispatch.md R80 to R83). -/
theorem step_of_not_cycleDue {s t : State} (hdue : ¬ CycleDue s) (hreset : ¬ ResetDue s) (hst : step s = .next t) :
    ∃ r es, t = { s.takeInput with run := r, events := es } := by
  obtain ⟨b, hb, -⟩ | ⟨-, hs⟩ | ⟨-, -, -, hs⟩ | ⟨-, -, -, hs⟩ | ⟨-, hs⟩ | ⟨hd, -⟩ := step_cases s
  · exact absurd ⟨b, hb⟩ hreset
  · exact ⟨_, _, Host.Outcome.next.inj (hst.symm.trans hs)⟩
  · exact ⟨_, _, Host.Outcome.next.inj (hst.symm.trans hs)⟩
  · exact ⟨_, _, Host.Outcome.next.inj (hst.symm.trans hs)⟩
  · exact ⟨_, _, Host.Outcome.next.inj (hst.symm.trans hs)⟩
  · exact absurd hd hdue

/-! ## The fault record is kept (10_state.md R22) -/

/-- Taking a fault keeps the record that is there (60_exceptions.md R148). -/
theorem takeFault_keeps_fault {s : State} {f : FatalFault} (hf : s.fault = some f) (g : FatalFault) :
    (takeFault g s).fault = some f := by
  simp [hf]

/-- No instruction loses the record. -/
theorem ExecEffect.keeps_fault {s t : State} {i : Instr} {f : FatalFault} (h : ExecEffect s i t)
    (hf : s.fault = some f) : t.fault = some f := by
  cases h with
  | storeFault _ => exact takeFault_keeps_fault hf _
  | bneFault _ => exact takeFault_keeps_fault hf _
  | _ => exact hf

theorem execute_keeps_fault {s t : State} {f : FatalFault} (h : execute s = .next t) (hf : s.fault = some f) :
    t.fault = some f := by
  obtain ⟨i, -, he⟩ | ⟨m, -, rfl⟩ := execute_cases h
  · exact he.keeps_fault hf
  · exact takeFault_keeps_fault hf _

theorem cycle_keeps_fault {s t : State} {f : FatalFault} (h : cycle s = .next t) (hf : s.fault = some f) :
    t.fault = some f := by
  obtain ⟨g, -, hc⟩ | ⟨w, u, -, hu, -, hc⟩ := cycle_cases s
  · cases hc.symm.trans h
    exact takeFault_keeps_fault (s := beginCycle s) hf g
  · cases hc.symm.trans h
    exact execute_keeps_fault (s := advance w (beginCycle s)) (t := u) hu hf

/-- Settles O28: of the steps that serve no reset only a cycle writes the record, and a cycle keeps the one that is there. -/
theorem firstFaultIsKept : Obligations.FirstFaultIsKept := by
  intro s t f hst hf hreset
  by_cases hdue : CycleDue s
  · exact cycle_keeps_fault (s := s.takeInput) ((step_of_cycleDue hdue).symm.trans hst) hf
  · obtain ⟨r, es, rfl⟩ := step_of_not_cycleDue hdue hreset hst
    exact hf

/-! ## A step that is a cycle, by what its fetch does (40_cycle_and_dispatch.md R84) -/

/-- A cycle whose fetch raises. -/
theorem step_of_fetch_error {s : State} {f : FatalFault} (hdue : CycleDue s) (hf : busRead32 s s.pc = .error f) :
    step s = .next { takeFault f (beginCycle s.takeInput) with instr := emptyLatch } := by
  rw [step_of_cycleDue hdue]
  exact cycle_of_fetch_error ((busRead32_takeInput s s.pc).trans hf)

/-- A cycle whose fetch returns a word is step 6 at the state steps 1 to 5 build. -/
theorem step_of_fetch_ok {s : State} {w : Word} (hdue : CycleDue s) (hw : busRead32 s s.pc = .ok w) :
    step s = endCycle (execute (atExecute s w)) := by
  rw [step_of_cycleDue hdue, cycle_of_fetch_ok ((busRead32_takeInput s s.pc).trans hw), advance_beginCycle_takeInput]

/-- What such a cycle answers: what step 6 answers, with the instruction gone. -/
theorem exists_execute_of_step {s t : State} {w : Word} (hdue : CycleDue s) (hw : busRead32 s s.pc = .ok w)
    (hst : step s = .next t) :
    ∃ u, execute (atExecute s w) = .next u ∧ SameBackground (atExecute s w) u ∧ t = { u with instr := emptyLatch } := by
  obtain ⟨u, hu, hb⟩ := execute_next (atExecute s w)
  rw [step_of_fetch_ok hdue hw, hu, endCycle_next] at hst
  exact ⟨u, hu, hb, (Host.Outcome.next.inj hst).symm⟩

/-- Step 6 for a word that decodes is its instruction (R85). -/
theorem execute_of_decodeWord {s : State} {i : Instr} (hd : decodeWord s.instr.word = .ok i) : execute s = exec i s := by
  simp only [execute, hd]

/-! ## `pc` after a cycle -/

/-- The address a jump writes, as a number: the segment of `p`, and four times the target (44_control_transfer.md R125). -/
theorem toNat_jumpAddress (p : Word) (g : BitVec 26) :
    (jumpAddress p g).toNat = p.toNat / 2 ^ 28 * 2 ^ 28 + g.toNat * 4 := by
  change (p.extractLsb' 28 4 ++ g ++ 0#2 : BitVec (4 + 26 + 2)).toNat = _
  have hp : p.toNat / 2 ^ 28 < 2 ^ 4 := by have := p.isLt; omega
  rw [BitVec.toNat_append, BitVec.toNat_append, ← Nat.shiftLeft_add_eq_or_of_lt g.isLt, BitVec.extractLsb'_toNat,
    Nat.shiftRight_eq_div_pow, Nat.mod_eq_of_lt hp, Nat.shiftLeft_eq, Nat.shiftLeft_eq, BitVec.toNat_zero, Nat.or_zero]
  omega

/-- Step 6 leaves `pc` alone unless the word in progress is a J. -/
theorem execute_pc_eq {s t : State} (h : execute s = .next t) (hj : ∀ g, decodeWord s.instr.word ≠ .ok (.j g)) :
    t.pc = s.pc := by
  obtain ⟨i, hd, he⟩ | ⟨m, -, rfl⟩ := execute_cases h
  · exact he.pc_eq fun g hi => hj g (hi ▸ hd)
  · rfl

/-- Step 6 writes the jump address to `pc` when the word in progress is a J. -/
theorem execute_pc_of_jump {s t : State} {g : BitVec 26} (h : execute s = .next t)
    (hd : decodeWord s.instr.word = .ok (.j g)) : t.pc = jumpAddress s.pc g := by
  rw [execute_of_decodeWord hd] at h
  cases h
  rfl

/-- Settles O32: steps 4 and 5 write the latch and `pc`, and step 6 writes `pc` again only for a J. -/
theorem pcAdvancesByFour : Obligations.PcAdvancesByFour := by
  intro s t w hdue hw hst
  obtain ⟨u, hu, ⟨hlatch, -⟩, rfl⟩ := exists_execute_of_step hdue hw hst
  have hpc : (atExecute s w).pc.toNat = (s.pc.toNat + 4) % 2 ^ 32 := BitVec.toNat_add s.pc 4
  refine ⟨hlatch, fun hj => ?_, fun g hd => ?_⟩
  · exact (congrArg BitVec.toNat (execute_pc_eq hu hj)).trans hpc
  · rw [← hpc, ← toNat_jumpAddress]
    exact congrArg BitVec.toNat (execute_pc_of_jump (t := u) hu hd)

/-! ## Register 0 (10_state.md R11 to R13) -/

/-- What a cycle does is decided by the state its first three steps build. -/
theorem cycle_congr {s t : State} (h : beginCycle s = beginCycle t) : cycle s = cycle t := by
  have hpc : s.pc = t.pc := by simpa using congrArg State.pc h
  simp only [cycle, h, hpc]

/-- Step 1 overwrites whatever stands in cell 0. -/
theorem beginCycle_withCell0 (s : State) (v : Word) : beginCycle (withCell0 s v) = beginCycle s := by
  simp only [beginCycle, withCell0_x, Vector.set_set]
  rfl

/-- Settles O33: both steps are cycles, and step 1 of each builds the same state. -/
theorem registerZeroIsUnobservable : Obligations.RegisterZeroIsUnobservable := by
  intro s v hdue
  have hdue' : CycleDue (withCell0 s v) := hdue
  rw [step_of_cycleDue hdue', step_of_cycleDue hdue]
  exact cycle_congr (beginCycle_withCell0 s.takeInput v)

/-- Step 6 leaves a register that is not the destination of the word in progress. -/
theorem execute_reg_eq {s t : State} {q : RegIdx} (h : execute s = .next t)
    (hq : ∀ i, decodeWord s.instr.word = .ok i → destination i ≠ some q) : t.reg q = s.reg q := by
  obtain ⟨i, hd, he⟩ | ⟨m, -, rfl⟩ := execute_cases h
  · exact he.reg_eq (hq i hd)
  · rfl

/-- After a cycle that did not write register 0, step 1's value stands in it: 0 (10_state.md R12). -/
theorem step_reg_zero {s t : State} (hdue : CycleDue s) (hst : step s = .next t)
    (h : (∃ f, busRead32 s s.pc = .error f) ∨ ∀ i, decodeWord s.latch.word = .ok i → destination i ≠ some 0) :
    t.reg 0 = 0 := by
  cases hw : busRead32 s s.pc with
  | error f =>
    cases (step_of_fetch_error hdue hw).symm.trans hst
    exact reg_beginCycle_zero s.takeInput
  | ok w =>
    obtain ⟨u, hu, -, rfl⟩ := exists_execute_of_step hdue hw hst
    have hdest := h.resolve_left (by simp [hw])
    exact (execute_reg_eq hu hdest).trans (reg_atExecute_zero s w)

/-- Settles O34: a clause for each kind of step. -/
theorem registerZeroIsTransient : Obligations.RegisterZeroIsTransient := by
  refine ⟨?_, ?_, ?_⟩
  · intro s u w i hdue hw hd hu
    have hx : execute (atExecute s w) = .next u := (execute_of_decodeWord (s := atExecute s w) hd).trans hu
    exact ⟨{ u with instr := emptyLatch }, by rw [step_of_fetch_ok hdue hw, hx, endCycle_next], rfl⟩
  · intro s t hdue hst h
    exact step_reg_zero hdue hst h
  · intro s t hdue hreset hst
    obtain ⟨r, es, rfl⟩ := step_of_not_cycleDue hdue hreset hst
    rfl

/-! ## What no rule reads: `sr`, the fault record, past events and the trace flag (10_state.md R19, R22) -/

/-- The outcome of `F` is the same, but for what no rule reads, when what no rule reads has been erased beforehand. -/
def IgnoresUnread (F : State → Result) : Prop := ∀ s, eraseOutcome (F (eraseUnread s)) = eraseOutcome (F s)

/-- Such an `F` does not tell states apart that differ only in what no rule reads. -/
theorem IgnoresUnread.congr {F : State → Result} (hF : IgnoresUnread F) {s t : State}
    (h : eraseUnread s = eraseUnread t) : eraseOutcome (F s) = eraseOutcome (F t) := by
  rw [← hF s, h, hF t]

theorem eraseOutcome_endCycle (r : Result) : eraseOutcome (endCycle r) = endCycle (eraseOutcome r) := by
  cases r <;> rfl

theorem busRead32_eraseUnread (s : State) (a : Word) : busRead32 (eraseUnread s) a = busRead32 s a :=
  busRead32_congr rfl rfl a

/-- The write path reads only the MEMCTL range, and its effects are events. -/
theorem ignoresUnread_busWrite32 (a v : Word) : IgnoresUnread fun s => settle s (busWrite32 s a v) := by
  intro s
  have hr : inRange (eraseUnread s).platform.memctl a = inRange s.platform.memctl a := rfl
  simp only [busWrite32, hr]
  split_ifs <;> rfl

theorem ignoresUnread_execBne (rs rt : RegIdx) (imm : Imm16) : IgnoresUnread (execBne rs rt imm) := by
  intro s
  have hreg : ∀ q, (eraseUnread s).reg q = s.reg q := reg_eraseUnread s
  simp only [execBne, hreg]
  split_ifs <;> rfl

theorem ignoresUnread_execMtc0 (rt rd : RegIdx) : IgnoresUnread (execMtc0 rt rd) := by
  intro s
  simp only [execMtc0]
  split_ifs <;> rfl

theorem ignoresUnread_exec (i : Instr) : IgnoresUnread (exec i) := by
  intro s
  cases i with
  | sw rt imm rs => exact ignoresUnread_busWrite32 (effectiveAddress s rs imm) (s.reg rt) s
  | bne rs rt imm => exact ignoresUnread_execBne rs rt imm s
  | mtc0 rt rd => exact ignoresUnread_execMtc0 rt rd s
  | _ => rfl

theorem ignoresUnread_execute : IgnoresUnread execute := by
  intro s
  simp only [execute, eraseUnread_instr]
  split
  · exact ignoresUnread_exec _ s
  · rfl

/-- The erased state fetches the same word, and steps 1 to 5 read nothing of what is erased. -/
theorem ignoresUnread_cycle : IgnoresUnread cycle := by
  intro s
  cases hw : busRead32 s s.pc with
  | error f =>
    rw [cycle_of_fetch_error hw, cycle_of_fetch_error ((busRead32_eraseUnread s s.pc).trans hw)]
    rfl
  | ok w =>
    rw [cycle_of_fetch_ok hw, cycle_of_fetch_ok ((busRead32_eraseUnread s s.pc).trans hw), eraseOutcome_endCycle,
      eraseOutcome_endCycle]
    exact congrArg endCycle (ignoresUnread_execute.congr rfl)

theorem ignoresUnread_serveReset (b : Boot) : IgnoresUnread (serveReset b) := by
  intro s
  unfold serveReset
  split_ifs <;> rfl

theorem ignoresUnread_serveStart : IgnoresUnread serveStart := by
  intro s
  have hb : biosPresent (eraseUnread s) = biosPresent s := rfl
  simp only [serveStart, eraseUnread_run, hb]
  split
  · rfl
  · split_ifs <;> rfl

theorem ignoresUnread_serveStep : IgnoresUnread serveStep := by
  intro s
  simp only [serveStep, eraseUnread_run]
  split
  · rfl
  · exact ignoresUnread_cycle s

theorem ignoresUnread_runLoop : IgnoresUnread runLoop := by
  intro s
  simp only [runLoop, eraseUnread_run]
  split
  · exact ignoresUnread_cycle s
  · rfl

theorem ignoresUnread_serve (c : HostInput) : IgnoresUnread (serve c) := by
  intro s
  unfold serve
  cases c.select with
  | reset b => exact ignoresUnread_serveReset b s
  | pause => rfl
  | start => exact ignoresUnread_serveStart s
  | step => exact ignoresUnread_serveStep s
  | none => exact ignoresUnread_runLoop s

theorem ignoresUnread_step : IgnoresUnread step :=
  fun s => ignoresUnread_serve s.pending s.takeInput

/-- Settles O41: a step ignores what no rule reads, since every command and every step of a cycle does. -/
theorem unreadStateIsUnobservable : Obligations.UnreadStateIsUnobservable :=
  fun _ _ h => ignoresUnread_step.congr h

/-! ## The reset state (10_state.md R24) -/

/-- The spec's default platform obeys the constraints of R5. -/
theorem defaultPlatform_wellFormed : defaultPlatform.wellFormed = true := by decide

/-- Settles O51: the values as `State.reset` lists them. -/
theorem resetStateValues : Obligations.ResetStateValues :=
  ⟨rfl, rfl, rfl, rfl, rfl, rfl, rfl⟩

/-- Settles O52: the default platform is legal, its image is empty, and `pc` is the base of its BIOS range. -/
theorem resetMeetsTheInvariant : Obligations.ResetMeetsTheInvariant where
  platform := defaultPlatform_wellFormed
  image := wf_nil
  pcAligned := bios_base_aligned defaultPlatform_wellFormed
  instrGone := rfl
  latch := .inl rfl
  fault := nofun

end Sys2Proof.Machine

/-! # The image and the bus: reads, writes, and what no step changes (20_memory.md) -/

namespace Sys2Proof.Machine

/-! ## The image and the configuration stay (20_memory.md R52) -/

/-- Whatever its fetch and its instruction do, a cycle leaves the image and the configuration as they were. -/
theorem cycle_keeps_image {s t : State} (h : cycle s = .next t) : t.mem = s.mem ∧ t.platform = s.platform := by
  obtain ⟨f, -, hc⟩ | ⟨w, u, -, -, hb, hc⟩ := cycle_cases s
  · cases hc.symm.trans h
    exact ⟨rfl, rfl⟩
  · cases hc.symm.trans h
    obtain ⟨-, hp, -, -, -, hm, -⟩ := hb
    exact ⟨hm, hp⟩

/-- Only a reset loads another image or another configuration. -/
theorem step_keeps_image {s t : State} (hreset : ¬ ResetDue s) (hst : step s = .next t) :
    t.mem = s.mem ∧ t.platform = s.platform := by
  by_cases hdue : CycleDue s
  · exact cycle_keeps_image (s := s.takeInput) ((step_of_cycleDue hdue).symm.trans hst)
  · obtain ⟨r, es, rfl⟩ := step_of_not_cycleDue hdue hreset hst
    exact ⟨rfl, rfl⟩

/-- Settles O38: the image and the configuration stay, and a read depends on nothing else. -/
theorem imageNeverChanges : Obligations.ImageNeverChanges := by
  intro s t hst hreset
  obtain ⟨hm, hp⟩ := step_keeps_image hreset hst
  exact ⟨hm, hp, busRead32_congr (congrArg Platform.bios hp) hm⟩

/-! ## The read path (20_memory.md R36) -/

theorem inRange_eq_false (r : AddressRange) (a : Word) :
    inRange r a = false ↔ ¬ (r.base.toNat ≤ a.toNat ∧ a.toNat < r.base.toNat + r.len) := by
  rw [← inRange_eq_true, Bool.not_eq_true]

/-- A misaligned read raises UnalignedAccess, whatever the ranges are (R39). -/
theorem busRead32_of_misaligned (s : State) {a : Word} (h : a.toNat % 4 ≠ 0) :
    busRead32 s a = .error (.unalignedAccess a) :=
  busRead32_error.mpr (.inl ⟨(aligned_eq_false a).mpr h, rfl⟩)

/-- An address that is read with success is a multiple of 4. -/
theorem aligned_of_busRead32 {s : State} {a w : Word} (h : busRead32 s a = .ok w) : a.toNat % 4 = 0 := by
  obtain ⟨ha, -, -⟩ := busRead32_ok.mp h
  exact (aligned_eq_true a).mp ha

/-- Settles O54: the BIOS reads one word of the image, at the base of its range plus the offset. -/
theorem biosReadAssemblesTheImage : Obligations.BiosReadAssemblesTheImage :=
  fun _ _ => toNat_wordOfBytes _ _ _ _

/-- An offset into the BIOS range and its base make the address again, so the word's bytes are those from the address on. -/
theorem toNat_biosRead32_sub_base (s : State) {a : Nat} (h : s.platform.bios.base.toNat ≤ a) :
    (biosRead32 s (a - s.platform.bios.base.toNat)).toNat =
      (s.mem.readByte a).toNat + 2 ^ 8 * (s.mem.readByte (a + 1)).toNat + 2 ^ 16 * (s.mem.readByte (a + 2)).toNat +
        2 ^ 24 * (s.mem.readByte (a + 3)).toNat := by
  have hword := biosReadAssemblesTheImage s (a - s.platform.bios.base.toNat)
  rwa [Nat.add_sub_cancel' h] at hword

/-- Settles O20: a clause for each outcome of the two checks. -/
theorem busReadReachesTheBiosOnly : Obligations.BusReadReachesTheBiosOnly := by
  intro s a
  refine ⟨busRead32_of_misaligned s, fun ha hout => ?_, fun ha hbase hlimit => ?_⟩
  · exact busRead32_error.mpr (.inr ⟨(aligned_eq_true a).mpr ha, (inRange_eq_false _ a).mpr hout, rfl⟩)
  · have hread : busRead32 s a = .ok (biosRead32 s (offsetIn s.platform.bios a)) :=
      busRead32_ok.mpr ⟨(aligned_eq_true a).mpr ha, (inRange_eq_true _ a).mpr ⟨hbase, hlimit⟩, rfl⟩
    exact ⟨_, hread, rfl, toNat_biosRead32_sub_base s hbase⟩

/-! ## The write path (20_memory.md R37) -/

/-- Sending an event changes nothing else (00_scope.md R8). -/
theorem onlyEvents_emit (s : State) (e : Event) : OnlyEvents [e] s (s.emit e) :=
  ⟨fun _ => rfl, rfl, rfl, rfl, rfl, rfl, rfl, rfl, rfl, rfl, rfl, rfl, fun _ => rfl⟩

/-- A misaligned write raises UnalignedAccess, whatever the ranges and the value are (R39). -/
theorem busWrite32_of_misaligned (s : State) {a : Word} (v : Word) (h : a.toNat % 4 ≠ 0) :
    busWrite32 s a v = .error (.unalignedAccess a) :=
  if_pos ((aligned_eq_false a).mpr h)

/-- An address that is written with success is a multiple of 4. -/
theorem aligned_of_busWrite32 {s t : State} {a v : Word} (h : busWrite32 s a v = .ok t) : a.toNat % 4 = 0 := by
  by_contra ha
  cases (busWrite32_of_misaligned s v ha).symm.trans h

/-- Settles O21: the cases of `busWrite32_cases` are the branches of the statement. -/
theorem busWriteProbesInOrder : Obligations.BusWriteProbesInOrder := by
  intro s a v
  refine ⟨busWrite32_of_misaligned s v, fun ha => ?_⟩
  obtain ⟨hmis, -⟩ | ⟨-, hin, hw⟩ | ⟨-, hout, hram, hw⟩ | ⟨-, hout, hram, hw⟩ := busWrite32_cases s a v
  · exact absurd ha ((aligned_eq_false a).mp hmis)
  · rw [if_pos ((inRange_eq_true _ a).mp hin)]
    exact ⟨_, hw, onlyEvents_emit s _⟩
  · rw [ramSizeAddr] at hram
    rw [if_neg ((inRange_eq_false _ a).mp hout), if_pos hram]
    exact ⟨_, hw, onlyEvents_emit s _⟩
  · rw [ramSizeAddr] at hram
    rw [if_neg ((inRange_eq_false _ a).mp hout), if_neg hram]
    exact hw

/-! ## Alignment comes first (20_memory.md R39, R40) -/

/-- Settles O22: a misaligned access is raised before any range is looked up, so one that was performed was aligned. -/
theorem misalignmentIsReportedFirst : Obligations.MisalignmentIsReportedFirst :=
  fun s _ v => ⟨fun h => ⟨busRead32_of_misaligned s h, busWrite32_of_misaligned s v h⟩,
    fun _ => aligned_of_busRead32, fun _ => aligned_of_busWrite32⟩

/-- A read of an aligned address raises no UnalignedAccess. -/
theorem busRead32_ne_unalignedAccess {s : State} {a : Word} (ha : a.toNat % 4 = 0) (b : Word) :
    busRead32 s a ≠ .error (.unalignedAccess b) := by
  intro h
  obtain ⟨hmis, -⟩ | ⟨-, -, hf⟩ := busRead32_error.mp h
  · exact (aligned_eq_false a).mp hmis ha
  · cases hf

/-- Settles O23: the invariant keeps `pc` a multiple of 4. -/
theorem fetchIsNeverMisaligned : Obligations.FetchIsNeverMisaligned :=
  fun _ a hInv => busRead32_ne_unalignedAccess hInv.pcAligned a

end Sys2Proof.Machine

/-! # Encoding: the decoder, the canonical words and the opcode table (30_encoding.md) -/

namespace Sys2Proof.Machine

/-! ## A word is its fields put together (30_encoding.md section 2) -/

theorem formatI_fields (w : Word) : formatI (fields w).opcode (fields w).rs (fields w).rt (fields w).imm = w := by
  have h : w.extractLsb' 26 6 ++ w.extractLsb' 21 5 ++ w.extractLsb' 16 5 ++ w.extractLsb' 0 16 = w.extractLsb' 0 32 := by
    simp only [BitVec.extractLsb'_append_extractLsb'_eq_extractLsb']
  exact h.trans BitVec.extractLsb'_eq_self

theorem formatJ_fields (w : Word) : formatJ (fields w).opcode (fields w).target = w := by
  have h : w.extractLsb' 26 6 ++ w.extractLsb' 0 26 = w.extractLsb' 0 32 := by
    simp only [BitVec.extractLsb'_append_extractLsb'_eq_extractLsb']
  exact h.trans BitVec.extractLsb'_eq_self

theorem formatR_fields (w : Word) :
    formatR (fields w).opcode (fields w).rs (fields w).rt (fields w).rd (fields w).shamt (fields w).funct = w := by
  have h : w.extractLsb' 26 6 ++ w.extractLsb' 21 5 ++ w.extractLsb' 16 5 ++ w.extractLsb' 11 5 ++ w.extractLsb' 6 5 ++
      w.extractLsb' 0 6 = w.extractLsb' 0 32 := by
    simp only [BitVec.extractLsb'_append_extractLsb'_eq_extractLsb']
  exact h.trans BitVec.extractLsb'_eq_self

theorem formatC0_fields (w : Word) :
    formatC0 (fields w).opcode (fields w).rs (fields w).rt (fields w).rd (w.extractLsb' 0 11) = w := by
  have h : w.extractLsb' 26 6 ++ w.extractLsb' 21 5 ++ w.extractLsb' 16 5 ++ w.extractLsb' 11 5 ++ w.extractLsb' 0 11 =
      w.extractLsb' 0 32 := by
    simp only [BitVec.extractLsb'_append_extractLsb'_eq_extractLsb']
  exact h.trans BitVec.extractLsb'_eq_self

@[simp] theorem formatC0_low (o : Code6) (rs rt rd : RegIdx) (low : BitVec 11) :
    (formatC0 o rs rt rd low).extractLsb' 0 11 = low :=
  BitVec.extractLsb'_append_eq_right

theorem eq_formatI_iff {w : Word} {o : Code6} {rs rt : RegIdx} {imm : Imm16} :
    w = formatI o rs rt imm ↔
      (fields w).opcode = o ∧ (fields w).rs = rs ∧ (fields w).rt = rt ∧ (fields w).imm = imm where
  mp h := by simp [h]
  mpr := by rintro ⟨rfl, rfl, rfl, rfl⟩; exact (formatI_fields w).symm

theorem eq_formatJ_iff {w : Word} {o : Code6} {g : BitVec 26} :
    w = formatJ o g ↔ (fields w).opcode = o ∧ (fields w).target = g where
  mp h := by simp [h]
  mpr := by rintro ⟨rfl, rfl⟩; exact (formatJ_fields w).symm

theorem eq_formatR_iff {w : Word} {o : Code6} {rs rt rd : RegIdx} {sa : BitVec 5} {fn : Code6} :
    w = formatR o rs rt rd sa fn ↔
      (fields w).opcode = o ∧ (fields w).rs = rs ∧ (fields w).rt = rt ∧ (fields w).rd = rd ∧
        (fields w).shamt = sa ∧ (fields w).funct = fn where
  mp h := by simp [h]
  mpr := by rintro ⟨rfl, rfl, rfl, rfl, rfl, rfl⟩; exact (formatR_fields w).symm

theorem eq_formatC0_iff {w : Word} {o : Code6} {rs rt rd : RegIdx} {low : BitVec 11} :
    w = formatC0 o rs rt rd low ↔
      (fields w).opcode = o ∧ (fields w).rs = rs ∧ (fields w).rt = rt ∧ (fields w).rd = rd ∧ w.extractLsb' 0 11 = low where
  mp h := by simp [h]
  mpr := by rintro ⟨rfl, rfl, rfl, rfl, rfl⟩; exact (formatC0_fields w).symm

/-! ## Each field of a masked word is the field of the word under that of the mask (R75) -/

@[simp] theorem fields_and_opcode (w v : Word) : (fields (w &&& v)).opcode = (fields w).opcode &&& (fields v).opcode :=
  BitVec.extractLsb'_and

@[simp] theorem fields_and_rs (w v : Word) : (fields (w &&& v)).rs = (fields w).rs &&& (fields v).rs :=
  BitVec.extractLsb'_and

@[simp] theorem fields_and_rt (w v : Word) : (fields (w &&& v)).rt = (fields w).rt &&& (fields v).rt :=
  BitVec.extractLsb'_and

@[simp] theorem fields_and_rd (w v : Word) : (fields (w &&& v)).rd = (fields w).rd &&& (fields v).rd :=
  BitVec.extractLsb'_and

@[simp] theorem fields_and_shamt (w v : Word) : (fields (w &&& v)).shamt = (fields w).shamt &&& (fields v).shamt :=
  BitVec.extractLsb'_and

@[simp] theorem fields_and_funct (w v : Word) : (fields (w &&& v)).funct = (fields w).funct &&& (fields v).funct :=
  BitVec.extractLsb'_and

@[simp] theorem fields_and_imm (w v : Word) : (fields (w &&& v)).imm = (fields w).imm &&& (fields v).imm :=
  BitVec.extractLsb'_and

/-! ## What the decoder asks of the fields -/

/-- The fields are those of the instruction: the opcode, the sub-opcode and the selector of its table entry
(30_encoding.md R71 to R73), and each operand in its place. -/
def Selects (F : Fields) : Instr → Prop
  | .lui rt imm => F.opcode = 0x0F ∧ F.rt = rt ∧ F.imm = imm
  | .ori rt rs imm => F.opcode = 0x0D ∧ F.rs = rs ∧ F.rt = rt ∧ F.imm = imm
  | .addiu rt rs imm => F.opcode = 0x09 ∧ F.rs = rs ∧ F.rt = rt ∧ F.imm = imm
  | .sw rt imm rs => F.opcode = 0x2B ∧ F.rs = rs ∧ F.rt = rt ∧ F.imm = imm
  | .j g => F.opcode = 0x02 ∧ F.target = g
  | .bne rs rt imm => F.opcode = 0x05 ∧ F.rs = rs ∧ F.rt = rt ∧ F.imm = imm
  | .mtc0 rt rd => F.opcode = 0x10 ∧ F.rs = 4 ∧ F.rt = rt ∧ F.rd = rd
  | .or rd rs rt => F.opcode = 0x00 ∧ F.rs = rs ∧ F.rt = rt ∧ F.rd = rd ∧ F.funct = 0x25
  | .sll rd rt sa => F.opcode = 0x00 ∧ F.rt = rt ∧ F.rd = rd ∧ F.shamt = sa ∧ F.funct = 0x00

/-- A word decodes to an instruction exactly when its fields are those of the instruction: from left to right by the
leaves of the decoder's chain, from right to left by the instruction, whose opcode picks the leaf. -/
theorem decodeWord_ok_iff {w : Word} {i : Instr} : decodeWord w = .ok i ↔ Selects (fields w) i where
  mp h := by
    rw [decodeWord_eq] at h
    split_ifs at h
    all_goals cases h
    all_goals simp [Selects, *]
  mpr h := by
    rw [decodeWord_eq]
    cases i <;> simp_all [Selects]

/-- The canonical word has the fields of its instruction (R77). -/
theorem selects_encode (i : Instr) : Selects (fields (encode i)) i := by
  cases i <;> simp [Selects, encode]

/-- Settles O2: the canonical word's fields are those of the instruction. -/
theorem decodeInvertsEncode : Obligations.DecodeInvertsEncode :=
  fun i => decodeWord_ok_iff.mpr (selects_encode i)

/-! ## The used bits, in the format of the instruction: ones in the used fields, zeros in the ignored ones (R75) -/

theorem usedBits_lui (rt : RegIdx) (imm : Imm16) :
    usedBits (.lui rt imm) = formatI (.allOnes 6) 0 (.allOnes 5) (.allOnes 16) := rfl

theorem usedBits_mtc0 (rt rd : RegIdx) :
    usedBits (.mtc0 rt rd) = formatC0 (.allOnes 6) (.allOnes 5) (.allOnes 5) (.allOnes 5) 0 := rfl

theorem usedBits_or (rd rs rt : RegIdx) :
    usedBits (.or rd rs rt) = formatR (.allOnes 6) (.allOnes 5) (.allOnes 5) (.allOnes 5) 0 (.allOnes 6) := rfl

theorem usedBits_sll (rd rt : RegIdx) (sa : BitVec 5) :
    usedBits (.sll rd rt sa) = formatR (.allOnes 6) 0 (.allOnes 5) (.allOnes 5) (.allOnes 5) (.allOnes 6) := rfl

/-- A word agrees with the canonical word on the used bits exactly when its fields are those of the instruction. -/
theorem and_usedBits_eq_encode_iff {w : Word} {i : Instr} : w &&& usedBits i = encode i ↔ Selects (fields w) i := by
  have hfull : w &&& 0xFFFFFFFF = w := BitVec.and_allOnes
  cases i with
  | ori | addiu | sw | bne => rw [usedBits, hfull]; exact eq_formatI_iff
  | j => rw [usedBits, hfull]; exact eq_formatJ_iff
  | lui => simp [usedBits_lui, encode, eq_formatI_iff, Selects, -BitVec.reduceAllOnes]
  | mtc0 => simp [usedBits_mtc0, encode, eq_formatC0_iff, Selects, BitVec.extractLsb'_and, -BitVec.reduceAllOnes]
  | or | sll => simp [usedBits_or, usedBits_sll, encode, eq_formatR_iff, Selects, -BitVec.reduceAllOnes]

/-- Settles O3: both sides say that the fields of the word are those of the instruction. -/
theorem decodeReadsExactlyTheUsedBits : Obligations.DecodeReadsExactlyTheUsedBits :=
  fun _ _ => decodeWord_ok_iff.trans and_usedBits_eq_encode_iff.symm

/-! ## The rows of the opcode table (spec/opcode_table.json) -/

/-- The mask of the seven rows without a sub-opcode or selector tests the opcode. -/
theorem opcodeRow_iff (w : Word) (o : Code6) : w &&& 0xFC000000 = formatI o 0 0 0 ↔ (fields w).opcode = o := by
  have hmask : (0xFC000000 : Word) = formatI (.allOnes 6) 0 0 0 := rfl
  simp [hmask, eq_formatI_iff, -BitVec.reduceAllOnes]

/-- The mask of the two rows of the special group tests the opcode and the sub-opcode. -/
theorem specialRow_iff (w : Word) (o fn : Code6) :
    w &&& 0xFC00003F = formatR o 0 0 0 0 fn ↔ (fields w).opcode = o ∧ (fields w).funct = fn := by
  have hmask : (0xFC00003F : Word) = formatR (.allOnes 6) 0 0 0 0 (.allOnes 6) := rfl
  simp [hmask, eq_formatR_iff, -BitVec.reduceAllOnes]

/-- The mask of the COP0 row tests the opcode and the selector. -/
theorem cop0Row_iff (w : Word) (o : Code6) (rs : RegIdx) :
    w &&& 0xFFE00000 = formatC0 o rs 0 0 0 ↔ (fields w).opcode = o ∧ (fields w).rs = rs := by
  have hmask : (0xFFE00000 : Word) = formatC0 (.allOnes 6) (.allOnes 5) 0 0 0 := rfl
  simp [hmask, eq_formatC0_iff, BitVec.extractLsb'_and, -BitVec.reduceAllOnes]

/-- The fields hit an entry of the tables, with the selector where the entry asks for one: a disjunct for each row of
the opcode table, in its order (30_encoding.md R71 to R73). -/
def HitsARow (F : Fields) : Prop :=
  F.opcode = 0x0F ∨ F.opcode = 0x0D ∨ F.opcode = 0x09 ∨ F.opcode = 0x2B ∨ F.opcode = 0x02 ∨ F.opcode = 0x05 ∨
  (F.opcode = 0x10 ∧ F.rs = 4) ∨ (F.opcode = 0x00 ∧ F.funct = 0x25) ∨ (F.opcode = 0x00 ∧ F.funct = 0x00)

theorem exists_row_iff (w : Word) : (∃ r ∈ opcodeTable, w &&& r.mask = r.matchBits) ↔ HitsARow (fields w) := by
  simp only [opcodeTable, List.mem_cons, List.not_mem_nil, or_false, exists_eq_or_imp, exists_eq_left]
  exact or_congr (opcodeRow_iff w 0x0F) <| or_congr (opcodeRow_iff w 0x0D) <| or_congr (opcodeRow_iff w 0x09) <|
    or_congr (opcodeRow_iff w 0x2B) <| or_congr (opcodeRow_iff w 0x02) <| or_congr (opcodeRow_iff w 0x05) <|
    or_congr (cop0Row_iff w 0x10 4) <| or_congr (specialRow_iff w 0x00 0x25) (specialRow_iff w 0x00 0x00)

/-- The fields of a word are those of some instruction exactly when they hit a row: an operand can have any value. -/
theorem exists_selects_iff (F : Fields) : (∃ i, Selects F i) ↔ HitsARow F where
  mp := by
    rintro ⟨i, hi⟩
    cases i <;> simp_all [Selects, HitsARow]
  mpr := by
    rintro (h | h | h | h | h | h | ⟨h, hrs⟩ | ⟨h, hfn⟩ | ⟨h, hfn⟩)
    · exact ⟨.lui F.rt F.imm, h, rfl, rfl⟩
    · exact ⟨.ori F.rt F.rs F.imm, h, rfl, rfl, rfl⟩
    · exact ⟨.addiu F.rt F.rs F.imm, h, rfl, rfl, rfl⟩
    · exact ⟨.sw F.rt F.imm F.rs, h, rfl, rfl, rfl⟩
    · exact ⟨.j F.target, h, rfl⟩
    · exact ⟨.bne F.rs F.rt F.imm, h, rfl, rfl, rfl⟩
    · exact ⟨.mtc0 F.rt F.rd, h, hrs, rfl, rfl⟩
    · exact ⟨.or F.rd F.rs F.rt, h, rfl, rfl, rfl, hfn⟩
    · exact ⟨.sll F.rd F.rt F.shamt, h, rfl, rfl, rfl, hfn⟩

/-- Settles O4: a word of a row and a word of an instruction are both one whose fields hit a row. -/
theorem decoderAcceptsTheOpcodeTable : Obligations.DecoderAcceptsTheOpcodeTable := fun w => by
  simp only [decodeWord_ok_iff, exists_selects_iff, exists_row_iff]

/-! ## The words that select no instruction (30_encoding.md R74, 45_system_cop0.md R136) -/

/-- Settles O6: the error leaves of the decoder's chain lie in the special group, in the COP0 entry and past the last
entry, and each carries the miss that its case names. -/
theorem illegalWordsAreRejectedByName : Obligations.IllegalWordsAreRejectedByName := by
  intro w m
  rw [decodeWord_eq]
  by_cases h0 : (fields w).opcode = 0x00
  · by_cases g0 : (fields w).funct = 0x00
    · simp [h0, g0]
    by_cases g1 : (fields w).funct = 0x25
    · simp [h0, g1]
    · simp_all [eq_comm (a := m)]
  by_cases h10 : (fields w).opcode = 0x10
  · by_cases hrs : (fields w).rs = 4
    · simp [h10, hrs]
    · simp_all [eq_comm (a := m)]
  · simp only [h0, h10, if_false, false_and, or_false]
    split_ifs <;> simp_all [eq_comm (a := m)]

/-! ## A pending illegal word (60_exceptions.md R144, R148) -/

/-- Taking a fatal fault writes the engine state, the record and the events, and nothing else (R148). -/
theorem onlyFault_takeFault (f : FatalFault) (s : State) : OnlyFault f s (takeFault f s) :=
  ⟨fun _ => rfl, rfl, rfl, rfl, by rw [takeFault_fault]; cases s.fault <;> rfl, rfl,
    rfl, rfl, rfl, rfl, rfl, rfl, fun _ => rfl⟩

/-- Step 6 for a word that selects no instruction is the fault of its miss (R85). -/
theorem execute_of_decodeWord_error {s : State} {m : Miss} (hd : decodeWord s.instr.word = .error m) :
    execute s = .next (takeFault (missFault s.instr.addr m) s) := by
  simp only [execute, hd]

/-- Settles O27: step 6 takes the fault of the miss, with the address in the latch. -/
theorem illegalWordTakesUnhandledInstruction : Obligations.IllegalWordTakesUnhandledInstruction := by
  intro s w m hdue hw hd
  have hstep : step s = .next (takeFault (missFault s.latch.addr m) { atExecute s w with instr := emptyLatch }) := by
    rw [step_of_fetch_ok hdue hw, execute_of_decodeWord_error (s := atExecute s w) hd]
    rfl
  have hfault := onlyFault_takeFault (missFault s.latch.addr m) { atExecute s w with instr := emptyLatch }
  refine ⟨_, hstep, ?_⟩
  cases m with
  | primary _ => exact hfault
  | special _ => exact hfault
  | cop0 _ => exact hfault

/-! ## Words of the spec, fields as numbers, and the assembled jump -/

/-- Settles O1: the decoder run on the twelve words of 95_test_vectors.md. -/
theorem decodesWordsOfTheSpec : Obligations.DecodesWordsOfTheSpec := by
  unfold Obligations.DecodesWordsOfTheSpec
  decide

/-- `imm_sx` as a number: the immediate, and `0xFFFF0000` more when its sign bit is set (30_encoding.md R67). -/
theorem toNat_sext16 (v : Imm16) : (sext16 v).toNat = if v.toNat < 0x8000 then v.toNat else v.toNat + 0xFFFF0000 := by
  have hv := v.isLt
  rw [sext16, BitVec.toNat_signExtend, BitVec.toNat_setWidth_of_le (by decide), BitVec.msb_eq_decide]
  by_cases hs : v.toNat < 0x8000
  · simp [hs]
  · simp [hs, Nat.not_lt.mp hs]

/-- Settles O5: a slice is a division and a remainder, and widening an immediate keeps its value or extends its sign. -/
theorem fieldsAreBitSlices : Obligations.FieldsAreBitSlices := by
  intro w
  have hw := w.isLt
  simp only [fields, zext16, toNat_sext16, BitVec.extractLsb'_toNat, BitVec.toNat_setWidth, Nat.shiftRight_eq_div_pow,
    Nat.pow_zero, Nat.div_one, true_and, and_true]
  constructor <;> omega

/-- Settles O15: the segment of `pc` is that of the address, and the target its bits 27 to 2. -/
theorem assembledJumpLandsAtItsAddress : Obligations.AssembledJumpLandsAtItsAddress := by
  intro addr s haligned hsegment
  refine ⟨s.setPc (jumpAddress s.pc (addr.extractLsb' 2 26)), rfl, BitVec.eq_of_toNat_eq ?_⟩
  rw [setPc_pc, toNat_jumpAddress, hsegment, BitVec.extractLsb'_toNat, Nat.shiftRight_eq_div_pow]
  omega

end Sys2Proof.Machine

/-! # The cycle and the host's commands (40_cycle_and_dispatch.md) -/

namespace Sys2Proof.Machine

/-! ## A cycle by what its fetch and its pending word are (40_cycle_and_dispatch.md R84, R85) -/

/-- A cycle whose pending word decodes. -/
theorem step_of_decodeWord {s : State} {w : Word} {i : Instr} (hdue : CycleDue s) (hw : busRead32 s s.pc = .ok w)
    (hd : decodeWord s.latch.word = .ok i) : step s = endCycle (exec i (atExecute s w)) := by
  rw [step_of_fetch_ok hdue hw, execute_of_decodeWord (s := atExecute s w) hd]

/-- A cycle whose pending word selects no instruction. -/
theorem step_of_decodeWord_error {s : State} {w : Word} {m : Miss} (hdue : CycleDue s)
    (hw : busRead32 s s.pc = .ok w) (hd : decodeWord s.latch.word = .error m) :
    step s = endCycle (.next (takeFault (missFault s.latch.addr m) (atExecute s w))) := by
  rw [step_of_fetch_ok hdue hw, execute_of_decodeWord_error (s := atExecute s w) hd, atExecute_instr]

/-- Settles O30: a clause for each way a cycle can go. -/
theorem stepRunsTheDecodedInstruction : Obligations.StepRunsTheDecodedInstruction := fun _ hdue =>
  ⟨fun _ _ => step_of_decodeWord hdue, fun _ _ => step_of_decodeWord_error hdue, fun _ => step_of_fetch_error hdue⟩

/-- Settles O31: the first cycle latches `w` with its address, and the second executes what is latched. -/
theorem fetchedWordExecutesNext : Obligations.FetchedWordExecutesNext := by
  intro s t w v i hdue hw hst hdue' hv hd
  obtain ⟨hlatch, -⟩ := pcAdvancesByFour s t w hdue hw hst
  have hd' : decodeWord t.latch.word = .ok i := hlatch ▸ hd
  exact ⟨step_of_decodeWord hdue' hv hd', hlatch, rfl⟩

/-! ## The NOP label (40_cycle_and_dispatch.md R93) -/

/-- The label tests the fields of an SLL of register 0 by 0, whatever its destination. -/
theorem isNop_iff {w : Word} : isNop w = true ↔ decodeWord w = .ok (.sll (fields w).rd 0 0) := by
  simp only [decodeWord_ok_iff, Selects, isNop, Bool.and_eq_true, beq_iff_eq]
  tauto

/-- The destination of a word that decodes to SLL is its field `rd`. -/
theorem rd_of_decodeWord_sll {w : Word} {rd rt : RegIdx} {sa : BitVec 5} (h : decodeWord w = .ok (.sll rd rt sa)) :
    (fields w).rd = rd := by
  obtain ⟨-, -, hrd, -⟩ := decodeWord_ok_iff.mp h
  exact hrd

/-- SLL by 0 copies its source to its destination (42_special_alu.md R111). -/
theorem exec_sll_by_zero (rd rt : RegIdx) (s : State) : exec (.sll rd rt 0) s = .next (s.setReg rd (s.reg rt)) := by
  simp [exec, execSll, shiftLeft]

/-- Settles O39: the label names an SLL whose source, register 0, step 1 has just cleared. -/
theorem nopLabelChangesNothing : Obligations.NopLabelChangesNothing := by
  refine ⟨fun w => ⟨fun h => ⟨_, isNop_iff.mp h⟩, fun ⟨rd, hd⟩ => ?_⟩, ?_⟩
  · exact isNop_iff.mpr (rd_of_decodeWord_sll hd ▸ hd)
  · rintro s t _ v hdue hv rfl hnop hst
    rw [step_of_decodeWord hdue hv (isNop_iff.mp hnop), exec_sll_by_zero, reg_atExecute_zero] at hst
    cases hst
    exact reg_setReg_same (atExecute s v) _ 0

/-! ## What a cycle sends after its trace event, and how it stops the engine (60_exceptions.md R148, R151) -/

/-- From `s` to `t` one signal is sent at most: none, or a diagnostic, or a fault, which stops the engine. -/
def AtMostOneSignal (s t : State) : Prop :=
  (t.run = s.run ∧ t.events = s.events) ∨
  (t.run = s.run ∧ ∃ sev a v, t.events = s.events ++ [.unimplementedStore sev a v]) ∨
  (t.run = .stopped ∧ ∃ f, t.events = s.events ++ [.fault f])

namespace AtMostOneSignal

variable {s t : State}

theorem of_takeFault (f : FatalFault) (s : State) : AtMostOneSignal s (takeFault f s) := .inr (.inr ⟨rfl, f, rfl⟩)

/-- Only faults and diagnostics are added to the events. -/
theorem exists_events (h : AtMostOneSignal s t) : ∃ es, t.events = s.events ++ es ∧ es.all isSignal = true := by
  obtain ⟨-, hev⟩ | ⟨-, _, _, _, hev⟩ | ⟨-, _, hev⟩ := h
  · exact ⟨[], by rw [hev, List.append_nil], rfl⟩
  · exact ⟨_, hev, rfl⟩
  · exact ⟨_, hev, rfl⟩

/-- The engine state changes only with a fault, which is then the last event. -/
theorem run_eq_or (h : AtMostOneSignal s t) :
    t.run = s.run ∨ (t.run = .stopped ∧ ∃ f, t.events.getLast? = some (.fault f)) := by
  obtain ⟨hrun, -⟩ | ⟨hrun, -⟩ | ⟨hrun, f, hev⟩ := h
  · exact .inl hrun
  · exact .inl hrun
  · exact .inr ⟨hrun, f, by rw [hev, List.getLast?_concat]⟩

/-- A Stopped engine stays Stopped. -/
theorem run_eq_stopped (h : AtMostOneSignal s t) (hs : s.run = .stopped) : t.run = .stopped := by
  obtain hrun | ⟨hrun, -⟩ := h.run_eq_or
  · exact hrun.trans hs
  · exact hrun

end AtMostOneSignal

/-- A handler sends the diagnostic of a store, or the fault it raises. -/
theorem ExecEffect.atMostOneSignal {s t : State} {i : Instr} (h : ExecEffect s i t) : AtMostOneSignal s t := by
  cases h with
  | storeAccepted sev => exact .inr (.inl ⟨rfl, sev, _, _, rfl⟩)
  | storeFault _ => exact .of_takeFault _ s
  | bneFault _ => exact .of_takeFault _ s
  | _ => exact .inl ⟨rfl, rfl⟩

theorem execute_atMostOneSignal {s t : State} (h : execute s = .next t) : AtMostOneSignal s t := by
  obtain ⟨i, -, he⟩ | ⟨m, -, rfl⟩ := execute_cases h
  · exact he.atMostOneSignal
  · exact .of_takeFault _ s

/-- After steps 1 to 3 a cycle sends the fault of its fetch, or what step 6 sends. -/
theorem cycle_atMostOneSignal {s t : State} (h : cycle s = .next t) : AtMostOneSignal (beginCycle s) t := by
  obtain ⟨f, -, hc⟩ | ⟨w, u, -, hu, -, hc⟩ := cycle_cases s
  · cases hc.symm.trans h
    exact .of_takeFault f (beginCycle s)
  · cases hc.symm.trans h
    exact execute_atMostOneSignal (s := advance w (beginCycle s)) (t := u) hu

/-- A step that is a cycle. -/
theorem step_atMostOneSignal {s t : State} (hdue : CycleDue s) (hst : step s = .next t) :
    AtMostOneSignal (beginCycle s) t :=
  cycle_atMostOneSignal (s := s.takeInput) ((step_of_cycleDue hdue).symm.trans hst)

/-! ## The trace event (40_cycle_and_dispatch.md R92) -/

/-- The mnemonic the trace event carries for a word: the handler, where the lookup of R85 hits one. -/
def mnemonic (w : Word) : Option Handler := (lookupHandler (fields w)).toOption

theorem mnemonic_of_decodeWord {w : Word} {i : Instr} (h : decodeWord w = .ok i) : mnemonic w = some (handlerOf i) := by
  rw [mnemonic, lookupHandler_of_decodeWord h]
  rfl

/-- A word whose lookup misses has no mnemonic. -/
theorem mnemonic_of_miss {w : Word} {m : Miss} (h : decodeWord w = .error m) (hm : ∀ q, m ≠ .cop0 q) :
    mnemonic w = none := by
  obtain ⟨hl, -⟩ | ⟨-, q, hq⟩ := decodeWord_error h
  · rw [mnemonic, hl]
    rfl
  · exact absurd hq (hm q)

/-- A coprocessor-0 word with a selector other than 4 has the mnemonic of the entry its lookup hits (log entry 9). -/
theorem mnemonic_of_cop0 {w : Word} {q : RegIdx} (h : decodeWord w = .error (.cop0 q)) : mnemonic w = some .mtc0 := by
  obtain ⟨-, hq⟩ | ⟨hl, -⟩ := decodeWord_error h
  · exact absurd rfl (hq q)
  · rw [mnemonic, hl]
    rfl

/-- Settles O40: steps 1 to 3 send the trace event if it is on, and what follows are signals. -/
theorem traceEventOfACycle : Obligations.TraceEventOfACycle := by
  intro s t hdue hst
  obtain ⟨es, hes, hsig⟩ := (step_atMostOneSignal hdue hst).exists_events
  rw [beginCycle_events] at hes
  refine ⟨fun hon => ⟨mnemonic s.latch.word, es, ?_, hsig, ?_, ?_, ?_, ?_⟩, fun hoff => ⟨es, ?_, hsig⟩⟩
  · rw [hes, if_pos hon, List.append_assoc]
    rfl
  · exact fun i => mnemonic_of_decodeWord
  · exact fun o hd => mnemonic_of_miss hd nofun
  · exact fun g hd => mnemonic_of_miss hd nofun
  · exact fun q => mnemonic_of_cop0
  · rw [hes, if_neg (by simp [hoff])]

/-! ## The engine state (40_cycle_and_dispatch.md R80) -/

theorem biosPresent_eq_true {s : State} : biosPresent s = true ↔ 0 < s.platform.bios.len := by simp [biosPresent]

theorem serveReset_run {b : Boot} {s t : State} (h : serveReset b s = .next t) : t.run = .stopped := by
  obtain ⟨-, rfl⟩ := serveReset_next h
  rfl

/-- How a step can leave the engine state: as it was, Running by `start`, or Stopped by `pause`, `reset` or a fault. -/
theorem step_run_cases {s t : State} (hst : step s = .next t) :
    t.run = s.run ∨
    (t.run = .running ∧ s.pending.select = .start ∧ 0 < s.platform.bios.len) ∨
    (t.run = .stopped ∧
      (s.pending.select = .pause ∨ ResetDue s ∨ ∃ f, t.events.getLast? = some (.fault f))) := by
  obtain ⟨b, hsel, hs⟩ | ⟨hsel, hs⟩ | ⟨hsel, -, hbios, hs⟩ | ⟨-, -, -, hs⟩ | ⟨-, hs⟩ | ⟨hdue, -⟩ := step_cases s
  · exact .inr (.inr ⟨serveReset_run (hs.symm.trans hst), .inr (.inl ⟨b, hsel⟩)⟩)
  · cases hs.symm.trans hst
    exact .inr (.inr ⟨rfl, .inl hsel⟩)
  · cases hs.symm.trans hst
    exact .inr (.inl ⟨rfl, hsel, biosPresent_eq_true.mp hbios⟩)
  · cases hs.symm.trans hst
    exact .inl rfl
  · cases hs.symm.trans hst
    exact .inl rfl
  · obtain hrun | ⟨hrun, hlast⟩ := (step_atMostOneSignal hdue hst).run_eq_or
    · exact .inl hrun
    · exact .inr (.inr ⟨hrun, .inr (.inr hlast)⟩)

/-- Settles O47: the cases of `step_run_cases` in which the engine state has changed. -/
theorem runStateTransitions : Obligations.RunStateTransitions := by
  intro s t hst
  obtain hrun | ⟨hrun, hstart⟩ | ⟨hrun, hstop⟩ := step_run_cases hst
  · rw [hrun]
    exact ⟨fun h h' => absurd (h.symm.trans h') nofun, fun h h' => absurd (h.symm.trans h') nofun⟩
  · rw [hrun]
    exact ⟨fun _ _ => hstart, fun _ => nofun⟩
  · rw [hrun]
    exact ⟨fun _ => nofun, fun _ _ => hstop⟩

/-- A cycle always answers a next state. -/
theorem exists_cycle_next (s : State) : ∃ t, cycle s = .next t := by
  obtain ⟨f, -, hc⟩ | ⟨w, u, -, -, -, hc⟩ := cycle_cases s
  · exact ⟨_, hc⟩
  · exact ⟨_, hc⟩

theorem serveReset_of_wellFormed {b : Boot} (s : State) (h : b.wellFormed = true) :
    serveReset b s = .next (resetTo b s) := if_pos h

/-- Settles O48: only a reset can stop the model, and a well-formed one does not. -/
theorem everyStepAnswers : Obligations.EveryStepAnswers := by
  intro s hreset
  obtain ⟨b, hsel, hs⟩ | ⟨-, hs⟩ | ⟨-, -, -, hs⟩ | ⟨-, -, -, hs⟩ | ⟨-, hs⟩ | ⟨-, hs⟩ := step_cases s
  · exact ⟨_, hs.trans (serveReset_of_wellFormed _ (hreset b hsel))⟩
  · exact ⟨_, hs⟩
  · exact ⟨_, hs⟩
  · exact ⟨_, hs⟩
  · exact ⟨_, hs⟩
  · obtain ⟨t, ht⟩ := exists_cycle_next s.takeInput
    exact ⟨t, hs.trans ht⟩

/-! ## The host's commands (40_cycle_and_dispatch.md R81 to R83, R87) -/

/-! A step at which one of these commands is selected serves it. -/

theorem step_of_start {s : State} (h : s.pending.select = .start) : step s = serveStart s.takeInput := by
  simp only [step, boundary, serve, h]

theorem step_of_pause {s : State} (h : s.pending.select = .pause) : step s = servePause s.takeInput := by
  simp only [step, boundary, serve, h]

theorem step_of_step {s : State} (h : s.pending.select = .step) : step s = serveStep s.takeInput := by
  simp only [step, boundary, serve, h]

/-- Settles O42: `start` reads the engine state and whether the BIOS is present. -/
theorem startNeedsABios : Obligations.StartNeedsABios := by
  intro s hsel
  rw [step_of_start hsel]
  refine ⟨fun hrun hlen => ?_, fun hrun hlen => ?_, fun hrun => ?_⟩
  · simp [serveStart, hrun, biosPresent, hlen]
  · simp [serveStart, hrun, biosPresent, hlen, State.emit]
  · simp [serveStart, hrun]

/-- Settles O43: `pause` writes the engine state alone. -/
theorem pauseStopsAtTheBoundary : Obligations.PauseStopsAtTheBoundary := fun _ => step_of_pause

/-- Without a BIOS no address is in its range, so an aligned read raises UnmappedRead (20_memory.md R36). -/
theorem busRead32_of_no_bios {s : State} {a : Word} (hlen : s.platform.bios.len = 0) (ha : a.toNat % 4 = 0) :
    busRead32 s a = .error (.unmappedRead a .bios) := by
  have hout : inRange s.platform.bios a = false := (inRange_eq_false _ a).mpr (by omega)
  exact busRead32_error.mpr (.inr ⟨(aligned_eq_true a).mpr ha, hout, rfl⟩)

/-- A cycle whose fetch raises records that fault where none is recorded (60_exceptions.md R148). -/
theorem fault_of_fetch_error {s t : State} {f : FatalFault} (hdue : CycleDue s) (hf : busRead32 s s.pc = .error f)
    (hnone : s.fault = none) (hst : step s = .next t) : t.fault = some f := by
  cases (step_of_fetch_error hdue hf).symm.trans hst
  simp [hnone]

/-- Settles O44: while Stopped the command makes a cycle due, and a cycle never starts the engine. -/
theorem singleStepIsOneCycle : Obligations.SingleStepIsOneCycle := by
  refine fun s hsel => ⟨fun hrun => ?_, fun hrun => ?_⟩
  · have hdue : CycleDue s := .inr ⟨hrun, hsel⟩
    obtain ⟨t, ht⟩ := exists_cycle_next s.takeInput
    have hst : step s = .next t := (step_of_cycleDue hdue).trans ht
    refine ⟨step_of_cycleDue hdue, t, hst, (step_atMostOneSignal hdue hst).run_eq_stopped hrun, ?_⟩
    exact fun hlen hnone hpc => fault_of_fetch_error hdue (busRead32_of_no_bios hlen hpc) hnone hst
  · simp [step_of_step hsel, serveStep, hrun]

/-- What is served depends on the command selected alone. -/
theorem serve_congr {c d : HostInput} (h : c.select = d.select) (s : State) : serve c s = serve d s := by
  simp only [serve, h]

/-- Settles O45: `select` tests the commands in their order, and a step passes the pending ones to `serve` alone. -/
theorem commandPriority : Obligations.CommandPriority := by
  refine ⟨fun _ _ _ _ => rfl, fun _ _ => rfl, fun _ => rfl, rfl, rfl, fun s c d rest h => ?_⟩
  exact serve_congr h { s with inputs := rest }

end Sys2Proof.Machine

/-! # The instructions with an immediate (41_immediate_alu.md) -/

namespace Sys2Proof.Machine

/-! ## Their shared effect, and their operands as numbers -/

/-- A write of one register changes nothing but that register (10_state.md R11). -/
theorem onlyReg_setReg (r : RegIdx) (v : Word) (s : State) : OnlyReg r s (s.setReg r v) :=
  ⟨fun _ => reg_setReg_ne s v, rfl, rfl, ⟨rfl, rfl, rfl⟩, rfl, rfl, rfl, rfl, rfl, rfl, fun _ => rfl⟩

/-- `imm_zx` as a number: the immediate itself (30_encoding.md R66). -/
theorem toNat_immZx (imm : Imm16) : (immZx imm).toNat = imm.toNat :=
  BitVec.toNat_setWidth_of_le (by decide)

/-- A shift as a number: a product, without the bits above bit 31 (00_scope.md section 6). -/
theorem toNat_shiftLeft (v : Word) (n : Nat) : (shiftLeft v n).toNat = v.toNat * 2 ^ n % 2 ^ 32 := by
  rw [shiftLeft, BitVec.toNat_shiftLeft, Nat.shiftLeft_eq]

/-- An immediate in the upper half of a word loses no bit. -/
theorem toNat_shiftLeft_immZx (imm : Imm16) : (shiftLeft (immZx imm) 16).toNat = imm.toNat * 2 ^ 16 := by
  have himm := imm.isLt
  rw [toNat_shiftLeft, toNat_immZx]
  omega

/-! ## LUI, ORI and ADDIU -/

/-- Settles O7: the row's mask leaves the opcode, and the shift puts the immediate in the upper half. -/
theorem luiLoadsTheUpperHalf : Obligations.LuiLoadsTheUpperHalf := by
  refine ⟨fun w hw => decodeWord_ok_iff.mpr ⟨(opcodeRow_iff w 0x0F).mp hw, rfl, rfl⟩, fun rt imm s => ?_⟩
  refine ⟨s.setReg rt (shiftLeft (immZx imm) 16), rfl, ?_, onlyReg_setReg rt _ s⟩
  rw [reg_setReg_same, toNat_shiftLeft_immZx]

/-- Settles O8: the handler's zero-extended immediate is the word of the same number. -/
theorem oriOrsTheZeroExtendedImmediate : Obligations.OriOrsTheZeroExtendedImmediate := by
  refine ⟨fun w hw => decodeWord_ok_iff.mpr ⟨(opcodeRow_iff w 0x0D).mp hw, rfl, rfl, rfl⟩, fun rt rs imm s => ?_⟩
  refine ⟨s.setReg rt (s.reg rs ||| immZx imm), rfl, ?_, onlyReg_setReg rt _ s⟩
  rw [reg_setReg_same, ← toNat_immZx, BitVec.ofNat_toNat, BitVec.setWidth_eq]

/-- Settles O9: the sum of words is the sum of numbers modulo `2 ^ 32`, and the handler has no other path. -/
theorem addiuAddsTheSignExtendedImmediate : Obligations.AddiuAddsTheSignExtendedImmediate := by
  refine ⟨fun w hw => decodeWord_ok_iff.mpr ⟨(opcodeRow_iff w 0x09).mp hw, rfl, rfl, rfl⟩, fun rt rs imm s => ?_⟩
  refine ⟨s.setReg rt (s.reg rs + immSx imm), rfl, ?_, onlyReg_setReg rt _ s⟩
  rw [reg_setReg_same, BitVec.toNat_add, immSx, toNat_sext16]

end Sys2Proof.Machine

/-! # OR and SLL (42_special_alu.md) -/

namespace Sys2Proof.Machine

/-- Settles O10: the row's mask leaves the opcode and the sub-opcode, and the handler writes its destination alone. -/
theorem orOrsTwoRegisters : Obligations.OrOrsTwoRegisters := by
  refine ⟨fun w hw => ?_, fun rd rs rt s => ?_⟩
  · obtain ⟨hopcode, hfunct⟩ := (specialRow_iff w 0x00 0x25).mp hw
    exact decodeWord_ok_iff.mpr ⟨hopcode, rfl, rfl, rfl, hfunct⟩
  · exact ⟨s.setReg rd (s.reg rs ||| s.reg rt), rfl, reg_setReg_same s rd _, onlyReg_setReg rd _ s⟩

/-- Settles O11: the row's mask leaves the opcode and the sub-opcode, and the shift is a product modulo `2 ^ 32`. -/
theorem sllShiftsLeft : Obligations.SllShiftsLeft := by
  refine ⟨fun w hw => ?_, fun rd rt shamt s => ?_⟩
  · obtain ⟨hopcode, hfunct⟩ := (specialRow_iff w 0x00 0x00).mp hw
    exact decodeWord_ok_iff.mpr ⟨hopcode, rfl, rfl, rfl, hfunct⟩
  · refine ⟨s.setReg rd (shiftLeft (s.reg rt) shamt.toNat), rfl, ?_, onlyReg_setReg rd _ s⟩
    rw [reg_setReg_same, toNat_shiftLeft]

end Sys2Proof.Machine

/-! # SW (43_store.md) -/

namespace Sys2Proof.Machine

section Store

variable {rt rs : RegIdx} {imm : Imm16} {s t : State} {ea : Word} {f : FatalFault}

/-- The word that R120's sum of numbers names is the effective address: both wrap modulo `2 ^ 32` (decision D16). -/
theorem eq_effectiveAddress_of_toNat
    (h : ea.toNat =
      ((s.reg rs).toNat + (if imm.toNat < 0x8000 then imm.toNat else imm.toNat + 0xFFFF0000)) % 2 ^ 32) :
    ea = effectiveAddress s rs imm := by
  rw [← toNat_sext16] at h
  exact BitVec.eq_of_toNat_eq (h.trans (BitVec.toNat_add _ _).symm)

/-- SW answers the state of a write the bus accepts. -/
theorem exec_sw_of_busWrite32_ok (h : busWrite32 s (effectiveAddress s rs imm) (s.reg rt) = .ok t) :
    exec (.sw rt imm rs) s = .next t :=
  congrArg (settle s) h

/-- SW takes the fault the bus raises (20_memory.md R37). -/
theorem exec_sw_of_busWrite32_error (h : busWrite32 s (effectiveAddress s rs imm) (s.reg rt) = .error f) :
    exec (.sw rt imm rs) s = .next (takeFault f s) :=
  congrArg (settle s) h

end Store

/-- Settles O12: the accepting probes of the bus, at the effective address. -/
theorem swToAStubDeviceIsAccepted : Obligations.SwToAStubDeviceIsAccepted := by
  intro rt imm rs s ea hea haligned
  obtain rfl := eq_effectiveAddress_of_toNat hea
  obtain ⟨-, hprobe⟩ := busWriteProbesInOrder s (effectiveAddress s rs imm) (s.reg rt)
  specialize hprobe haligned
  refine ⟨fun hin => ?_, fun hout hram => ?_⟩
  · rw [if_pos hin] at hprobe
    obtain ⟨t, hw, hevents⟩ := hprobe
    exact ⟨t, exec_sw_of_busWrite32_ok hw, hevents⟩
  · rw [if_neg hout, if_pos hram] at hprobe
    obtain ⟨t, hw, hevents⟩ := hprobe
    exact ⟨t, exec_sw_of_busWrite32_ok hw, hevents⟩

/-- Settles O13: the bus raises on a misaligned address, and on an aligned one that every probe passes by. -/
theorem swElsewhereTakesAFault : Obligations.SwElsewhereTakesAFault := by
  intro rt imm rs s ea hea
  obtain rfl := eq_effectiveAddress_of_toNat hea
  obtain ⟨hmisaligned, hprobe⟩ := busWriteProbesInOrder s (effectiveAddress s rs imm) (s.reg rt)
  refine ⟨fun hmis => ?_, fun haligned hout hram => ?_⟩
  · exact ⟨_, exec_sw_of_busWrite32_error (hmisaligned hmis), onlyFault_takeFault _ s⟩
  · have hw := hprobe haligned
    rw [if_neg hout, if_neg hram] at hw
    exact ⟨_, exec_sw_of_busWrite32_error hw, onlyFault_takeFault _ s⟩

end Sys2Proof.Machine

/-! # J and BNE (44_control_transfer.md) -/

namespace Sys2Proof.Machine

/-! ## The delay slot: the cycles after a J (44_control_transfer.md R126, R128) -/

/-- The word that R125's number names is the address the jump writes. -/
theorem eq_jumpAddress_of_toNat {p T : Word} {g : BitVec 26}
    (h : T.toNat = (p.toNat + 4) % 2 ^ 32 / 2 ^ 28 * 2 ^ 28 + g.toNat * 4) : T = jumpAddress (p + 4) g := by
  have hp : (p + 4).toNat = (p.toNat + 4) % 2 ^ 32 := BitVec.toNat_add p 4
  rw [← hp, ← toNat_jumpAddress] at h
  exact BitVec.eq_of_toNat_eq h

/-- A Running engine without commands is due a cycle (40_cycle_and_dispatch.md R86). -/
theorem cycleDue_of_no_inputs {s : State} (hrun : s.run = .running) (hin : s.inputs = []) : CycleDue s :=
  .inl ⟨hrun, by rw [State.pending, hin]; rfl⟩

/-- A step that is a cycle answers a next state. -/
theorem exists_step_next {s : State} (hdue : CycleDue s) : ∃ t, step s = .next t := by
  rw [step_of_cycleDue hdue]
  exact exists_cycle_next s.takeInput

/-- A cycle with a J pending puts `pc` at its target and latches the delay slot; the next step is a cycle again and
reads the same words (R126, cycle `n`). -/
theorem exists_step_of_jump {s : State} {g : BitVec 26} {d T : Word} (hrun : s.run = .running) (hin : s.inputs = [])
    (hd : decodeWord s.latch.word = .ok (.j g)) (hw : busRead32 s s.pc = .ok d)
    (hT : T.toNat = (s.pc.toNat + 4) % 2 ^ 32 / 2 ^ 28 * 2 ^ 28 + g.toNat * 4) :
    ∃ t, step s = .next t ∧ t.pc = T ∧ t.latch = ⟨d, s.pc⟩ ∧ t.run = .running ∧ t.inputs = [] ∧
      ∀ a, busRead32 t a = busRead32 s a := by
  obtain rfl := eq_jumpAddress_of_toNat hT
  refine ⟨_, step_of_decodeWord (cycleDue_of_no_inputs hrun hin) hw hd, rfl, rfl, hrun, ?_, busRead32_congr rfl rfl⟩
  exact congrArg List.tail hin

/-- Settles O35: the J's cycle latches `d`, and the next one executes `d` and latches the target's word. -/
theorem jumpHasOneDelaySlot : Obligations.JumpHasOneDelaySlot := by
  intro s g d v T i hrun hin hj hd hT hv hi
  obtain ⟨t, hst, hpc, hlatch, hrun', hin', hread⟩ := exists_step_of_jump hrun hin hj hd hT
  have hdue : CycleDue t := cycleDue_of_no_inputs hrun' hin'
  have hv' : busRead32 t t.pc = .ok v := by rw [hread, hpc, hv]
  have hi' : decodeWord t.latch.word = .ok i := by rw [hlatch, hi]
  refine ⟨t, hst, hpc, hlatch, step_of_decodeWord hdue hv' hi', hlatch, fun u hu => ?_⟩
  obtain ⟨hlatch', -⟩ := pcAdvancesByFour t u v hdue hv' hu
  rw [hlatch', hpc]

/-- Settles O36: two cycles with a J pending, and one that fetches at the second target. -/
theorem jumpInADelaySlot : Obligations.JumpInADelaySlot := by
  intro s g1 g2 d v1 v2 T1 T2 hrun hin hj1 hd hj2 hT1 hT2 hv1 hv2
  obtain ⟨t1, hst1, rfl, hlatch1, hrun1, hin1, hread1⟩ := exists_step_of_jump hrun hin hj1 hd hT1
  have hj2' : decodeWord t1.latch.word = .ok (.j g2) := by rw [hlatch1, hj2]
  have hv1' : busRead32 t1 t1.pc = .ok v1 := by rw [hread1, hv1]
  obtain ⟨t2, hst2, rfl, hlatch2, hrun2, hin2, hread2⟩ := exists_step_of_jump hrun1 hin1 hj2' hv1' hT2
  have hdue : CycleDue t2 := cycleDue_of_no_inputs hrun2 hin2
  have hv2' : busRead32 t2 t2.pc = .ok v2 := by rw [hread2, hread1, hv2]
  obtain ⟨t3, hst3⟩ := exists_step_next hdue
  obtain ⟨hlatch3, -⟩ := pcAdvancesByFour t2 t3 v2 hdue hv2' hst3
  exact ⟨t1, t2, t3, hst1, hst2, hst3, rfl, hlatch1, rfl, hlatch2, hlatch3⟩

/-! ## J and BNE alone (44_control_transfer.md R125, R127) -/

/-- A write of `pc` changes nothing else (10_state.md R15). -/
theorem onlyPc_setPc (s : State) (v : Word) : OnlyPc s (s.setPc v) :=
  ⟨fun _ => rfl, rfl, ⟨rfl, rfl, rfl⟩, rfl, rfl, rfl, rfl, rfl, rfl, fun _ => rfl⟩

/-- Settles O14: the handler writes the jump address to `pc`. -/
theorem jWritesThePc : Obligations.JWritesThePc := fun target s =>
  ⟨s.setPc (jumpAddress s.pc target), rfl, toNat_jumpAddress s.pc target, onlyPc_setPc s _⟩

/-- BNE of equal registers completes with the state as it was. -/
theorem exec_bne_of_eq {rs rt : RegIdx} {s : State} (imm : Imm16) (h : s.reg rs = s.reg rt) :
    exec (.bne rs rt imm) s = .next s :=
  congrArg (settle s) (if_pos h)

/-- BNE of unequal registers takes UnhandledInstruction (decision D14). -/
theorem exec_bne_of_ne {rs rt : RegIdx} {s : State} (imm : Imm16) (h : s.reg rs ≠ s.reg rt) :
    exec (.bne rs rt imm) s = .next (takeFault (.unhandledInstruction s.instr.addr 0x05 none) s) :=
  congrArg (settle s) (if_neg h)

/-- Settles O16: a register compared with itself is the case of equal registers. -/
theorem bneOfEqualsDoesNothing : Obligations.BneOfEqualsDoesNothing :=
  fun _ _ imm _ => ⟨exec_bne_of_eq imm, exec_bne_of_eq imm rfl⟩

/-- Settles O17: the handler takes the fault, and taking it writes the record, the engine state and the events alone. -/
theorem bneOfUnequalsTakesAFault : Obligations.BneOfUnequalsTakesAFault :=
  fun _ _ imm s h => ⟨_, exec_bne_of_ne imm h, onlyFault_takeFault _ s⟩

end Sys2Proof.Machine

/-! # MTC0 (45_system_cop0.md) -/

namespace Sys2Proof.Machine

/-- A write of `sr` changes nothing else (10_state.md R19). -/
theorem onlySr_setSr (s : State) (v : Word) : OnlySr s (s.setSr v) :=
  ⟨reg_setSr s v, rfl, ⟨rfl, rfl, rfl⟩, rfl, rfl, rfl, rfl, rfl, rfl, fun _ => rfl⟩

/-- MTC0 of the status register's number writes `sr` (R135). -/
theorem exec_mtc0_statusRegister (rt : RegIdx) (s : State) :
    exec (.mtc0 rt statusRegister) s = .next (s.setSr (s.reg rt)) :=
  congrArg Host.Outcome.next (if_pos rfl)

/-- MTC0 of any other number completes with the state as it was (R135). -/
theorem exec_mtc0_of_ne {rd : RegIdx} (rt : RegIdx) (s : State) (h : rd ≠ statusRegister) :
    exec (.mtc0 rt rd) s = .next s :=
  congrArg Host.Outcome.next (if_neg h)

/-- Settles O18: the status register's number is 12 (decision D15), and the handler writes `sr` for that number alone. -/
theorem mtcZeroWritesTheStatusRegister : Obligations.MtcZeroWritesTheStatusRegister := by
  refine fun rt rd s => ⟨?_, exec_mtc0_of_ne rt s⟩
  rintro rfl
  exact ⟨s.setSr (s.reg rt), exec_mtc0_statusRegister rt s, setSr_sr s _, onlySr_setSr s _⟩

end Sys2Proof.Machine

/-! # Fatal faults and signals (60_exceptions.md) -/

namespace Sys2Proof.Machine

/-- Settles O24: a fault writes the engine state, the record and the events alone. -/
theorem takingAFault : Obligations.TakingAFault := onlyFault_takeFault

/-! ## A fault in step 4 or in step 6 (60_exceptions.md R149) -/

/-- Settles O25: the fault is taken at the state steps 1 to 3 build, which reads as before. -/
theorem fetchFaultLeavesTheLatch : Obligations.FetchFaultLeavesTheLatch := by
  intro s f hdue hf
  obtain ⟨hreg, hpc, hsr, hrun, hfault, hevents, hlatch, hplat, -, -, -, hmem, -⟩ :=
    onlyFault_takeFault f (beginCycle s.takeInput)
  refine ⟨_, step_of_fetch_error hdue hf, (hreg 0).trans (reg_beginCycle_zero _),
    fun q hq => (hreg q).trans (reg_beginCycle_ne _ hq), hpc, hlatch, hsr, hrun, hfault, hevents, hmem, hplat, ?_⟩
  exact (busRead32_congr rfl rfl s.pc).trans hf

/-- A fault that sent the event of `f` was `f` (R148). -/
theorem eq_of_takeFault_events {s : State} {f g : FatalFault}
    (hev : (takeFault g s).events = s.events ++ [.fault f]) : g = f :=
  Event.fault.inj (List.singleton_inj.mp (List.append_cancel_left hev))

/-- A handler whose one event is the fault `f` has taken `f` and done nothing else (R88). -/
theorem ExecEffect.eq_takeFault {s t : State} {i : Instr} {f : FatalFault} (h : ExecEffect s i t)
    (hev : t.events = s.events ++ [.fault f]) : t = takeFault f s := by
  cases h with
  | storeAccepted sev => exact nomatch List.append_cancel_left hev
  | storeFault _ => rw [eq_of_takeFault_events hev]
  | bneFault _ => rw [eq_of_takeFault_events hev]
  | _ => exact absurd hev (by simp)

/-- The same for step 6. -/
theorem execute_eq_takeFault {s t : State} {f : FatalFault} (h : execute s = .next t)
    (hev : t.events = s.events ++ [.fault f]) : t = takeFault f s := by
  obtain ⟨i, -, he⟩ | ⟨m, -, rfl⟩ := execute_cases h
  · exact he.eq_takeFault hev
  · rw [eq_of_takeFault_events hev]

/-- Settles O26: the fault is taken at the state steps 1 to 5 build, and the end of the cycle drops the instruction. -/
theorem executeFaultConsumesTheInstruction : Obligations.ExecuteFaultConsumesTheInstruction := by
  intro s t w f hdue hw hst hev
  obtain ⟨u, hu, -, rfl⟩ := exists_execute_of_step hdue hw hst
  obtain rfl := execute_eq_takeFault (t := u) hu hev
  obtain ⟨hreg, hpc, hsr, hrun, hfault, -, hlatch, -⟩ := onlyFault_takeFault f (atExecute s w)
  exact ⟨(hreg 0).trans (reg_atExecute_zero s w), fun q hq => (hreg q).trans (reg_atExecute_ne s w hq), hpc, hlatch,
    hsr, hrun, hfault, rfl⟩

/-! ## The signals of a step (20_memory.md R50, 60_exceptions.md R151) -/

/-- From `s` to `t` events are only added, `n` faults and diagnostics among them at most. -/
def AddsSignals (n : Nat) (s t : State) : Prop :=
  ∃ es, t.events = s.events ++ es ∧ (es.filter isSignal).length ≤ n

namespace AddsSignals

variable {s t u : State} {m n : Nat}

/-- One event counts if it is a fault or a diagnostic. -/
theorem of_one_event {e : Event} (h : t.events = s.events ++ [e]) : AddsSignals 1 s t :=
  ⟨[e], h, List.length_filter_le _ _⟩

theorem of_same_events (h : t.events = s.events) : AddsSignals n s t :=
  ⟨[], h.trans (List.append_nil _).symm, Nat.zero_le n⟩

theorem trans (hst : AddsSignals m s t) (htu : AddsSignals n t u) : AddsSignals (m + n) s u := by
  obtain ⟨es, hes, hm⟩ := hst
  obtain ⟨fs, hfs, hn⟩ := htu
  refine ⟨es ++ fs, by rw [hfs, hes, List.append_assoc], ?_⟩
  rw [List.filter_append, List.length_append]
  exact Nat.add_le_add hm hn

/-- The trace event is no signal (00_scope.md R8). -/
theorem beginCycle (s : State) : AddsSignals 0 s (beginCycle s) := by
  by_cases htrace : s.platform.trace = true
  · exact ⟨[traceEvent s.latch], if_pos htrace, Nat.le_refl 0⟩
  · exact of_same_events (if_neg htrace)

end AddsSignals

theorem AtMostOneSignal.addsSignals {s t : State} (h : AtMostOneSignal s t) : AddsSignals 1 s t := by
  obtain ⟨-, hev⟩ | ⟨-, _, _, _, hev⟩ | ⟨-, _, hev⟩ := h
  · exact .of_same_events hev
  · exact .of_one_event hev
  · exact .of_one_event hev

/-- Settles O29: a cycle sends its trace event and one signal at most, `start` its report, other commands nothing. -/
theorem atMostOneSignalPerStep : Obligations.AtMostOneSignalPerStep := by
  intro s t hst
  obtain ⟨b, -, hs⟩ | ⟨-, hs⟩ | ⟨-, -, -, hs⟩ | ⟨-, -, -, hs⟩ | ⟨-, hs⟩ | ⟨hdue, -⟩ := step_cases s
  · obtain ⟨-, rfl⟩ := serveReset_next (hs.symm.trans hst)
    exact AddsSignals.of_same_events (resetTo_events b s.takeInput)
  · cases hs.symm.trans hst
    exact AddsSignals.of_same_events (s := s) (n := 1) rfl
  · cases hs.symm.trans hst
    exact AddsSignals.of_same_events (s := s) (n := 1) rfl
  · cases hs.symm.trans hst
    exact AddsSignals.of_one_event (s := s) (emit_events s.takeInput .cannotStart)
  · cases hs.symm.trans hst
    exact AddsSignals.of_same_events (takeInput_events s)
  · exact (AddsSignals.beginCycle s).trans (step_atMostOneSignal hdue hst).addsSignals

/-! ## A Stopped engine (60_exceptions.md R159) -/

/-- A step at which no command is selected is one pass of the run loop (40_cycle_and_dispatch.md R86). -/
theorem step_of_no_command {s : State} (h : s.pending.select = .none) : step s = runLoop s.takeInput := by
  simp only [step, boundary, serve, h]

/-- While Stopped the run loop does nothing (40_cycle_and_dispatch.md R80). -/
theorem runLoop_of_stopped {s : State} (h : s.run = .stopped) : runLoop s = .next s := by
  simp only [runLoop, h]

/-- Settles O46: the step takes the pending commands, and the run loop does nothing. -/
theorem stoppedRetainsAllState : Obligations.StoppedRetainsAllState :=
  fun _ hrun hsel => (step_of_no_command hsel).trans (runLoop_of_stopped hrun)

end Sys2Proof.Machine

/-! # Reset, and the first cycle after it (70_reset_and_hazards.md) -/

namespace Sys2Proof.Machine

/-- Settles O49: the step serves the reset at the state whose pending commands are taken. -/
theorem resetCommandReinitialises : Obligations.ResetCommandReinitialises := by
  intro s b hsel hb
  have hst : step s = .next (resetTo b s.takeInput) := by rw [step_of_reset hsel, serveReset_of_wellFormed _ hb]
  exact ⟨_, hst, reg_resetTo_zero b _, rfl, rfl, rfl, rfl, rfl, rfl, rfl, resetTo_events b _, resetTo_inputs b _⟩

/-- The base of a legal BIOS range reads the first word of the image (20_memory.md R36). -/
theorem busRead32_bios_base {s : State} (hplat : s.platform.wellFormed = true) (hbios : 0 < s.platform.bios.len) :
    busRead32 s s.platform.bios.base = .ok (biosRead32 s 0) := by
  obtain ⟨-, -, hread⟩ := busReadReachesTheBiosOnly s s.platform.bios.base
  obtain ⟨w, hw, hword, -⟩ := hread (bios_base_aligned hplat) le_rfl (Nat.lt_add_of_pos_right hbios)
  rw [hw, hword, Nat.sub_self]

/-- Settles O37: the empty latch is an SLL of register 0 into register 0, which step 1 has just cleared. -/
theorem firstCycleAfterReset : Obligations.FirstCycleAfterReset := by
  intro s hdue hplat hbios hlatch hpc
  have hfetch : busRead32 s s.pc = .ok (biosRead32 s 0) := by rw [hpc, busRead32_bios_base hplat hbios]
  have hd : decodeWord s.latch.word = .ok (.sll 0 0 0) := by rw [hlatch]; exact decodeWord_emptyLatch
  have hst := step_of_decodeWord hdue hfetch hd
  rw [exec_sll_by_zero, reg_atExecute_zero, endCycle_next] at hst
  refine ⟨_, hst, reg_setReg_same _ 0 0, fun q hq => ?_, ?_, ?_, rfl, rfl, rfl⟩
  · exact (reg_setReg_ne _ 0 hq).trans (reg_atExecute_ne s _ hq)
  · exact congrArg (· + 4) hpc
  · exact congrArg (Latch.mk (biosRead32 s 0)) hpc

end Sys2Proof.Machine
